-- ==== Sys2Proof/Word.lean ====
section
/-! DEFINITION. The word type of the codec (spec/00_scope.md R6, R10, R12). -/

namespace Sys2Proof

/-- A Word: a native-width unsigned integer in `[0, 2^W)`, bit 0 the least significant (R10, R12).
A SignedWord on a port is the same W-bit pattern; its value is an `Int` (R12). -/
abbrev Word (W : Nat) := BitVec W

end Sys2Proof
end

