-- ==== Sys2Proof/Config.lean ====
section
/-! DEFINITION. The configuration constants the codec is built with, the derived constants, and the
one free value (spec/00_scope.md R6 to R9, spec/10_state.md R27). -/

namespace Sys2Proof

/-- The legal values of `WORD_BITS` (R6): there are two. -/
inductive Width where
  | w32
  | w64
  deriving DecidableEq, Repr

/-- `WORD_BITS` as a number (R6). -/
def Width.bits : Width → Nat
  | .w32 => 32
  | .w64 => 64

/-- The configuration constants of R27. One `W` serves the constants, the operands and the shifts
(R6, D9), so the second condition of R173 holds by construction. -/
structure Config where
  /-- `WORD_BITS` (R6). -/
  width : Width
  /-- `PRIMARY_IMMEDIATE` (R7). -/
  primaryImmediate : BitVec 2
  /-- `MIN_NEG_SMALL` (R8). -/
  minNegSmall : Int
  /-- `MAX_POS_SMALL` (R8). -/
  maxPosSmall : Int
  deriving DecidableEq, Repr

/-- `W`, the width of every Word of this codec (R6). -/
abbrev Config.W (c : Config) : Nat := c.width.bits

/-- Width of the primary tag (R9). -/
abbrev primaryTagBits : Nat := 2

/-- Width of the subtype tag (R9). -/
abbrev tagBits : Nat := 2

/-- Position of the subtype tag (R9). -/
abbrev tagShift : Nat := 2

/-- Position of the payload (R9). -/
abbrev payloadShift : Nat := 4

/-- Width of a prefix (R9). -/
abbrev prefixBits : Nat := 4

/-- `SMALL_BITS`, the width of the payload (R9). -/
abbrev smallBits (W : Nat) : Nat := W - 4

/-- The build that `State.reset` holds. DESIGN CHOICE, unsafe (log 1): the spec leaves all four
constants as parameters; these are the values its test vectors use (spec/95_test_vectors.md). -/
def Config.vectors : Config where
  width := .w64
  primaryImmediate := 0b01#2
  minNegSmall := -2 ^ 59
  maxPosSmall := 2 ^ 59 - 1

/-- FREE VALUE: what `y` holds in a fatal outcome, "unspecified (any value)" (R141, U8).
DEDUCED (log 2): it is a function of the inputs and the configuration alone, as R25 and R45 say
of every output; nothing says which. -/
opaque Config.fatalY (c : Config) (op : BitVec 3) (a b : Word c.W) : Word c.W

end Sys2Proof
end

