-- ==== Sys2Proof/Syntax.lean ====
section
/-! DEFINITION. The eight operations, the subtype tags, and the transaction-script notation
(spec/30_encoding.md R56, R66, R71). -/

namespace Sys2Proof

/-- The operations of R66, one per row of spec/opcode_table.json. An operation has no operand
fields (R65): its operands are on the ports `a` and `b`. -/
inductive Instr where
  | isImm1
  | getPrefix
  | getPrefixAndTag
  | getTag
  | getValueUnsigned
  | getValueSigned
  | combineUnsigned
  | combineSigned
  deriving DecidableEq, Repr

/-- Which operations read port `b` (R26); every operation reads port `a`. -/
def Instr.readsB : Instr → Bool
  | .isImm1 => false
  | .getPrefix => false
  | .getPrefixAndTag => false
  | .getTag => false
  | .getValueUnsigned => false
  | .getValueSigned => false
  | .combineUnsigned => true
  | .combineSigned => true

/-- The four subtypes of R56. -/
inductive SubtypeTag where
  | pid
  | port
  | imm2
  | small
  deriving DecidableEq, Repr

/-- The constant names of the script notation (R71). -/
inductive ConstName where
  | prefixOf (t : SubtypeTag)
  | minNegSmall
  | maxPosSmall
  deriving DecidableEq, Repr

/-- An operand of the script notation (R71). -/
inductive Operand where
  /-- A numeral, decimal, `0x` or `0b`, optionally negative. -/
  | num (v : Int)
  /-- An earlier result `rM`; results are numbered from 1 in the order of their lines (log 7). -/
  | result (m : Nat)
  /-- A named constant. -/
  | const (c : ConstName)
  deriving DecidableEq, Repr

/-- A line of a transaction script (R71): a mnemonic with one operand or with two. -/
structure ScriptLine where
  instr : Instr
  a : Operand
  b : Option Operand
  deriving DecidableEq, Repr

/-- What the environment issues: the op code, and where the values of the two ports come from
(R22, R71: the triple `(op, a, b)`). A result name is looked up when the operation is issued. -/
structure Command where
  op : BitVec 3
  a : Operand
  b : Operand
  deriving DecidableEq, Repr

end Sys2Proof
end

