-- ==== Sys2Proof/WellFormed.lean ====
section
/-! DEFINITION. Which configurations the spec describes (R8, R173), and which script lines belong to
the notation of R71. An operation has no fields and no reserved form, so each of the eight is
well formed as it stands (R67). -/

namespace Sys2Proof

/-- R8, R173: both bounds lie, in order, in the W-4-bit two's-complement range. -/
def Config.legal (c : Config) : Bool :=
  decide (-2 ^ (c.W - 5) ≤ c.minNegSmall) &&
  decide (c.minNegSmall ≤ c.maxPosSmall) &&
  decide (c.maxPosSmall ≤ 2 ^ (c.W - 5) - 1)

/-- A numeral stands for a W-bit pattern: a Word, or a negative SignedWord (R12, R71).
DEDUCED (log 7): R71 gives no pattern to any other number. -/
def numeralFits (W : Nat) (v : Int) : Bool :=
  decide (-2 ^ (W - 1) ≤ v) && decide (v < 2 ^ W)

/-- An operand of the notation in a line that `earlier` lines precede (R71). -/
def Operand.wf (W earlier : Nat) : Operand → Bool
  | .num v => numeralFits W v
  | .result m => decide (1 ≤ m) && decide (m ≤ earlier)
  | .const _ => true

/-- A script line of the notation (R71): a second operand exactly where the operation reads `b`. -/
def ScriptLine.wf (W earlier : Nat) (l : ScriptLine) : Bool :=
  l.a.wf W earlier &&
  match l.b with
  | none => !l.instr.readsB
  | some o => l.instr.readsB && o.wf W earlier

end Sys2Proof
end

