-- ==== Sys2Proof/Decode.lean ====
section
/-! DEFINITION. The decoder and the encoder (spec/30_encoding.md R56, R65 to R71). -/

namespace Sys2Proof

/-- Why a command word is no operation. -/
inductive DecodeError where
  /-- A bit above `op[2:0]` is set: the op field has three bits (R65). DEDUCED, safe (log 8). -/
  | widerThanOp (w : Nat)
  deriving DecidableEq, Repr

/-- R66, the table read by `op[2]`, `op[1]`, `op[0]`. Total: every code is an operation (R67). -/
def decodeOp (op : BitVec 3) : Instr :=
  match op.getLsbD 2, op.getLsbD 1, op.getLsbD 0 with
  | false, false, false => .isImm1
  | false, false, true  => .getPrefix
  | false, true,  false => .getPrefixAndTag
  | false, true,  true  => .getTag
  | true,  false, false => .getValueUnsigned
  | true,  false, true  => .getValueSigned
  | true,  true,  false => .combineUnsigned
  | true,  true,  true  => .combineSigned

/-- A command word given as a number: `op` in bits 2:0 and nothing above (R65). -/
def decodeWord (w : Nat) : Except DecodeError Instr :=
  if w < 2 ^ 3 then .ok (decodeOp (BitVec.ofNat 3 w)) else .error (.widerThanOp w)

/-- The instruction read from the `nbits`-bit word `w` (bits from `nbits` up are 0). The word has no
bytes to lay out: `op` is a parallel port (R24). -/
def decodeTableWord (nbits w : Nat) : Option Instr :=
  match decodeWord (w % 2 ^ nbits) with
  | .ok i => some i
  | .error _ => none

/-- The op code of an operation (R66). -/
def encode : Instr → BitVec 3
  | .isImm1 => 0b000#3
  | .getPrefix => 0b001#3
  | .getPrefixAndTag => 0b010#3
  | .getTag => 0b011#3
  | .getValueUnsigned => 0b100#3
  | .getValueSigned => 0b101#3
  | .combineUnsigned => 0b110#3
  | .combineSigned => 0b111#3

/-- The code of a subtype tag (R56). -/
def SubtypeTag.code : SubtypeTag → BitVec 2
  | .pid => 0b00#2
  | .port => 0b01#2
  | .imm2 => 0b10#2
  | .small => 0b11#2

/-- The subtype a 2-bit code names: all four codes are defined (R56). -/
def SubtypeTag.ofCode (t : BitVec 2) : SubtypeTag :=
  match t.getLsbD 1, t.getLsbD 0 with
  | false, false => .pid
  | false, true  => .port
  | true,  false => .imm2
  | true,  true  => .small

/-- R71: the encoding of a line is the triple `(op, a, b)`, with `b = 0` where the operation reads
no `b`. -/
def encodeLine (l : ScriptLine) : Command where
  op := encode l.instr
  a := l.a
  b := if l.instr.readsB then l.b.getD (.num 0) else .num 0

/-- The script line that a command is the encoding of. -/
def decodeLine (c : Command) : ScriptLine where
  instr := decodeOp c.op
  a := c.a
  b := if (decodeOp c.op).readsB then some c.b else none

end Sys2Proof
end

