-- ==== Sys2Proof/Machine/State.lean ====
section
/-! DEFINITION. The machine's state as plain data, the reasons a step can stop, and the state after
reset (spec/10_state.md R20 to R29, spec/60_exceptions.md R140 to R143). -/

namespace Sys2Proof.Machine

/-- The fault causes of R140. -/
inductive FaultCode where
  /-- Code 1: a payload extraction of a word that is not Immediate1. -/
  | notImmediate1
  /-- Code 2: a subtype tag above 3. Never raised (R92). -/
  | tagOutOfRange
  /-- Code 3: a composition with a prefix of 16 or more. -/
  | prefixOutOfRange
  /-- Code 4: COMBINE_UNSIGNED of a value of 2^(W-4) or more. -/
  | unsignedPayloadOutOfRange
  /-- Code 5: COMBINE_SIGNED of a value outside the Small bounds. -/
  | smallOutOfRange
  deriving DecidableEq, Repr

/-- What the fault record holds of the faulting operation (R28, R142). -/
structure FaultRecord (W : Nat) where
  code : FaultCode
  op : BitVec 3
  a : Word W
  b : Word W
  deriving DecidableEq, Repr

/-- Why the machine stops with a fault. -/
inductive Fault where
  /-- Raised by `step` when the fault record is set: the run has aborted and no further operation is
  issued (R28, R143, U9). Safe: nothing can be proved of a run past a fault. -/
  | runAborted (code : FaultCode)
  deriving DecidableEq, Repr

/-- Why the machine gives no meaning. -/
inductive Refusal where
  /-- Raised by `exec`'s arm of an operation with no meaning yet; no arm is one. Safe. -/
  | notModelled (mnemonic : String)
  /-- Raised by every operation of a codec whose constants break R8 (R173, U4: "refuse"). Safe. -/
  | illegalConfiguration
  /-- Raised by `step` when a pending command names an operand that R71 gives no value: a numeral
  that is no W-bit pattern, or a result no earlier line has. Safe (log 7). -/
  | operandNotDefined
  deriving DecidableEq, Repr

/-- The machine: the constants the codec is built with (R27), its ports (R24), the environment's
fault record (R28), and the environment's own queue and results (R22, R71; log 5). The codec itself
holds nothing (R20): the output ports here are what R25 makes of the inputs (log 3). The
four `pfx_*` outputs are functions of `cfg` (`State.pfx`, Ops.lean). -/
structure State where
  /-- The configuration constants; no operation writes them (R27). -/
  cfg : Config
  /-- Input port `op`. -/
  op : BitVec 3
  /-- Input port `a`. -/
  a : Word cfg.W
  /-- Input port `b`. -/
  b : Word cfg.W
  /-- Output port `y`. -/
  y : Word cfg.W
  /-- Output port `fatal`. -/
  fatal : BitVec 1
  /-- Output port `fcode`. -/
  fcode : BitVec 3
  /-- The environment's fault record. -/
  faultRec : Option (FaultRecord cfg.W)
  /-- The model's own: the commands the environment has yet to issue, the next one first. -/
  pending : List Command
  /-- The model's own: the results `r1`, `r2`, … of the run so far, oldest first. -/
  results : List (Word cfg.W)
  deriving DecidableEq, Repr

/-- R29: the fault record is `none`. The constants are as built (log 1: the build of the spec's
vectors); the environment drives zeros and has nothing pending (logs 3, 5); the outputs
are what R25 gives for those inputs. -/
def State.reset : State where
  cfg := Config.vectors
  op := 0
  a := 0
  b := 0
  y := 0
  fatal := 0
  fcode := 0
  faultRec := none
  pending := []
  results := []

end Sys2Proof.Machine
end

