-- ==== Sys2Proof/Machine/Operands.lean ====
section
/-! DEFINITION. The value and slicing primitives (spec/00_scope.md R11 to R14), the payload forms
(R59), the prefix constants (R130), and the operand forms of a command (R71). -/

namespace Sys2Proof.Machine

/-- `toSigned` (R12). -/
def toSigned {W : Nat} (u : Word W) : Int :=
  if u.toNat < 2 ^ (W - 1) then u.toNat else u.toNat - 2 ^ W

/-- `toUnsigned`: `s mod 2^W` (R12). -/
def toUnsigned (W : Nat) (s : Int) : Word W := BitVec.ofInt W s

/-- `v[hi:lo]`, of width `hi-lo+1` (R11). -/
def slice {W : Nat} (v : Word W) (hi lo : Nat) : BitVec (hi - lo + 1) := v.extractLsb hi lo

/-- `zext_W`: zeros above (R14). -/
def zext (W : Nat) {n : Nat} (v : BitVec n) : Word W := v.setWidth W

/-- `sext_W(v, n)`: the value of an n-bit two's-complement pattern (R14). -/
def sext {n : Nat} (v : BitVec n) : Int :=
  if v.getLsbD (n - 1) then v.toNat - 2 ^ n else v.toNat

/-- `u << n`, truncated to W bits (R13). -/
def shl {W : Nat} (u : Word W) (n : Nat) : Word W := u <<< n

/-- `u >>u n`, the logical shift (R13). -/
def shrU {W : Nat} (u : Word W) (n : Nat) : Word W := u >>> n

/-- `s >>s n`, the arithmetic shift: `floor(s / 2^n)` (R13). -/
def shrS (s : Int) (n : Nat) : Int := s / 2 ^ n

/-- The precomposed prefix constant of a subtype: `PRIMARY_IMMEDIATE | (t << 2)` (R130). -/
def prefixConst (c : Config) (t : SubtypeTag) : BitVec 4 :=
  c.primaryImmediate.setWidth 4 ||| (t.code.setWidth 4 <<< tagShift)

/-- The value of a named constant on a port (R71). -/
def constValue (c : Config) : ConstName → Word c.W
  | .prefixOf t => zext c.W (prefixConst c t)
  | .minNegSmall => toUnsigned c.W c.minNegSmall
  | .maxPosSmall => toUnsigned c.W c.maxPosSmall

/-- The value an operand of a command puts on its port (R71), `none` where R71 gives it none
(log 7): a numeral that fits is its W-bit pattern, `rM` is the M-th result of the run. -/
def State.operand (s : State) : Operand → Option (Word s.cfg.W)
  | .num v => if numeralFits s.cfg.W v then some (toUnsigned s.cfg.W v) else none
  | .result 0 => none
  | .result (m + 1) => s.results[m]?
  | .const c => some (constValue s.cfg c)

end Sys2Proof.Machine
end

