-- ==== Sys2Proof/Machine/Flags.lean ====
section
/-! DEFINITION. The codec has no flags or condition codes (spec/10_state.md R23). Here stand the
conditions its operations check and the codes its `fcode` output reports
(spec/60_exceptions.md R140). -/

namespace Sys2Proof.Machine

/-- The number of a fault code on `fcode` (R140). -/
def FaultCode.code : FaultCode → BitVec 3
  | .notImmediate1 => 1#3
  | .tagOutOfRange => 2#3
  | .prefixOutOfRange => 3#3
  | .unsignedPayloadOutOfRange => 4#3
  | .smallOutOfRange => 5#3

/-- R57: `w[1:0] = PRIMARY_IMMEDIATE`; the subtype tag and the payload do not enter into it. -/
def isImmediate1 (c : Config) (w : Word c.W) : Bool := slice w 1 0 == c.primaryImmediate

/-- R90's defensive bound on an extracted tag. -/
def tagInRange (t : BitVec 2) : Bool := decide (t.toNat ≤ 3)

/-- `prefix < 2^4`, on all W bits of `b` (R68, R121, R126). -/
def prefixInRange {W : Nat} (b : Word W) : Bool := decide (b.toNat < 2 ^ prefixBits)

/-- `value < 2^(W-4)` (R121). -/
def unsignedInRange {W : Nat} (a : Word W) : Bool := decide (a.toNat < 2 ^ smallBits W)

/-- `MIN_NEG_SMALL <= value <= MAX_POS_SMALL` (R126). -/
def smallInRange (c : Config) (v : Int) : Bool :=
  decide (c.minNegSmall ≤ v) && decide (v ≤ c.maxPosSmall)

end Sys2Proof.Machine
end

