-- ==== Sys2Proof/Machine/Ops.lean ====
section
/-! DEFINITION. The shared operations: how an operation ends, with a result or fatally
(spec/60_exceptions.md R141, R142), and how the environment issues one (spec/10_state.md R22, R28).
There is no memory to access (R40) and no return from a fatal outcome (R146). -/

namespace Sys2Proof.Machine

/-- What the pseudocode of an operation ends in (R16, R141): `y <- v`, or `raise Fatal(code)`. -/
inductive OpOutcome (W : Nat) where
  | ok (y : Word W)
  | fatal (code : FaultCode)
  deriving DecidableEq, Repr

/-- `y <- v`: `fatal = 0`, `fcode = 0` and `y` carries the result (R16, R141); the environment adds it to
the run's results (R71). Nothing else changes (R44). -/
def State.deliver (s : State) (v : Word s.cfg.W) : State :=
  { s with y := v, fatal := 0#1, fcode := 0#3, results := s.results ++ [v] }

/-- TAKING THE FATAL OUTCOME, `raise Fatal(code)` (R141, R142, R28): `fatal = 1`, `fcode = code`, `y`
holds any value (log 2), and the fault record holds the code and the operation with its operands.
There is no result, no vector, and no mode change (R143). -/
def State.raiseFatal (s : State) (i : Instr) (code : FaultCode) : State :=
  { s with
    y := s.cfg.fatalY (encode i) s.a s.b
    fatal := 1#1
    fcode := code.code
    faultRec := some { code := code, op := encode i, a := s.a, b := s.b } }

/-- How every operation ends. A codec whose constants break R8 computes nothing (R173, log 10). -/
def conclude (i : Instr) (s : State) (o : OpOutcome s.cfg.W) :
    Host.Outcome State Fault Refusal :=
  if s.cfg.legal then
    match o with
    | .ok v => .next (s.deliver v)
    | .fatal code => .next (s.raiseFatal i code)
  else .refused .illegalConfiguration

/-- The environment drives the input ports with an operation and takes it off its queue (R22). -/
def State.present (s : State) (op : BitVec 3) (a b : Word s.cfg.W) (rest : List Command) : State :=
  { s with op := op, a := a, b := b, pending := rest }

/-- What the environment does next. -/
inductive Issue where
  /-- Nothing: the run has aborted (R28, R143). -/
  | aborted (code : FaultCode)
  /-- Nothing: no command is pending (log 6). -/
  | idle
  /-- The next command has an operand without a value (log 7). -/
  | undefinedOperand
  /-- It issues the operation `i`; `s` is the state with the ports driven. -/
  | operation (i : Instr) (s : State)

/-- Issuing the next operation: never once the fault record is set (R28). -/
def State.issueNext (s : State) : Issue :=
  match s.faultRec with
  | some r => .aborted r.code
  | none =>
    match s.pending with
    | [] => .idle
    | c :: rest =>
      match s.operand c.a, s.operand c.b with
      | some a, some b => .operation (decodeOp c.op) (s.present c.op a b rest)
      | _, _ => .undefinedOperand

/-- The op code `op` placed before all pending commands, its operands those now on the ports. -/
def State.placeFirst (s : State) (op : BitVec 3) : State :=
  { s with
    pending := { op := op, a := .num s.a.toNat, b := .num s.b.toNat } :: s.pending }

/-- The constant outputs `pfx_pid`, `pfx_port`, `pfx_imm2`, `pfx_small` (R24, R130), by subtype. -/
def State.pfx (s : State) (t : SubtypeTag) : BitVec 4 := prefixConst s.cfg t

/-- The run has ended successfully. The spec states one half: a faulted run never has (R143). DESIGN
CHOICE, unsafe (log 14): that a run without a fault has when nothing is left to issue, so that
a run in which nothing was ever issued, `State.reset` among them, has too. -/
def State.succeeded (s : State) : Bool := s.pending.isEmpty && s.faultRec.isNone

end Sys2Proof.Machine
end

