-- ==== Sys2Proof/Machine/Classify.lean ====
section
/-! DEFINITION. Classification and tag extraction (spec/40_classify.md R80 to R92): each reads the word
on port `a`, ignores port `b`, and has no precondition (R80). -/

namespace Sys2Proof.Machine

/-- IS_IMM1 (R81). -/
def execIsImm1 (s : State) : Host.Outcome State Fault Refusal :=
  conclude .isImm1 s (.ok (if isImmediate1 s.cfg s.a then 1 else 0))

/-- GET_PREFIX (R84): bits 1:0, not the 4-bit prefix (C4 of spec/90_conflicts.md). -/
def execGetPrefix (s : State) : Host.Outcome State Fault Refusal :=
  conclude .getPrefix s (.ok (zext s.cfg.W (slice s.a 1 0)))

/-- GET_PREFIX_AND_TAG (R87). -/
def execGetPrefixAndTag (s : State) : Host.Outcome State Fault Refusal :=
  conclude .getPrefixAndTag s (.ok (zext s.cfg.W (slice s.a 3 0)))

/-- GET_TAG (R90), with the source's defensive check, which never fires (R92, C3). -/
def execGetTag (s : State) : Host.Outcome State Fault Refusal :=
  let t : BitVec 2 := slice s.a 3 2
  conclude .getTag s (if tagInRange t then .ok (zext s.cfg.W t) else .fatal .tagOutOfRange)

end Sys2Proof.Machine
end

