-- ==== Sys2Proof/Machine/Compose.lean ====
section
/-! DEFINITION. Composition (spec/42_compose.md R120 to R128): port `a` is the value, port `b` the
prefix. The prefix check comes first; nothing but its range is checked of the prefix (R120). -/

namespace Sys2Proof.Machine

/-- COMBINE_UNSIGNED (R121). -/
def execCombineUnsigned (s : State) : Host.Outcome State Fault Refusal :=
  conclude .combineUnsigned s
    (if !prefixInRange s.b then .fatal .prefixOutOfRange
     else if !unsignedInRange s.a then .fatal .unsignedPayloadOutOfRange
     else .ok (s.b ||| shl s.a payloadShift))

/-- COMBINE_SIGNED (R126, R127). -/
def execCombineSigned (s : State) : Host.Outcome State Fault Refusal :=
  let value := toSigned s.a
  conclude .combineSigned s
    (if !prefixInRange s.b then .fatal .prefixOutOfRange
     else if !smallInRange s.cfg value then .fatal .smallOutOfRange
     else .ok (s.b ||| shl (toUnsigned s.cfg.W value) payloadShift))

end Sys2Proof.Machine
end

