-- ==== Sys2Proof/Machine/Extract.lean ====
section
/-! DEFINITION. Payload extraction (spec/41_extract.md R100 to R107): each reads the word on port `a`,
ignores port `b`, and requires an Immediate1 word of any subtype (R100). -/

namespace Sys2Proof.Machine

/-- GET_VALUE_UNSIGNED (R101). -/
def execGetValueUnsigned (s : State) : Host.Outcome State Fault Refusal :=
  conclude .getValueUnsigned s
    (if isImmediate1 s.cfg s.a then .ok (shrU s.a payloadShift) else .fatal .notImmediate1)

/-- GET_VALUE_SIGNED (R105). -/
def execGetValueSigned (s : State) : Host.Outcome State Fault Refusal :=
  conclude .getValueSigned s
    (if isImmediate1 s.cfg s.a then .ok (toUnsigned s.cfg.W (shrS (toSigned s.a) payloadShift))
     else .fatal .notImmediate1)

end Sys2Proof.Machine
end

