-- ==== Sys2Proof/Machine/Dispatch.lean ====
section
/-! DEFINITION. One arm per operation of spec/opcode_table.json. -/

namespace Sys2Proof.Machine

def exec (i : Instr) (s : State) : Host.Outcome State Fault Refusal :=
  match i with
  | .isImm1 => Sys2Proof.Machine.execIsImm1 s
  | .getPrefix => Sys2Proof.Machine.execGetPrefix s
  | .getPrefixAndTag => Sys2Proof.Machine.execGetPrefixAndTag s
  | .getTag => Sys2Proof.Machine.execGetTag s
  | .getValueUnsigned => Sys2Proof.Machine.execGetValueUnsigned s
  | .getValueSigned => Sys2Proof.Machine.execGetValueSigned s
  | .combineUnsigned => Sys2Proof.Machine.execCombineUnsigned s
  | .combineSigned => Sys2Proof.Machine.execCombineSigned s

end Sys2Proof.Machine
end

