-- ==== Sys2Proof/Machine/Step.lean ====
section
/-! DEFINITION. One step: the environment issues its next operation and the codec's outcome is driven
and recorded (spec/10_state.md R22, R25, R28; spec/70_reset_and_hazards.md R178). -/

namespace Sys2Proof.Machine

/-- One atomic step. With nothing pending nothing happens (log 6); once the fault record is set the
run has aborted (R143, log 4). -/
def step (s : State) : Host.Outcome State Fault Refusal :=
  match s.issueNext with
  | .aborted code => .fault (.runAborted code)
  | .idle => .next s
  | .undefinedOperand => .refused .operandNotDefined
  | .operation i t => exec i t

/-- The command word `w` placed as the environment's next command, with the operands now on the
ports; it stands for the load of a program from outside (log 5). -/
def State.withFetchWord (s : State) (nbits w : Nat) : State :=
  s.placeFirst (BitVec.ofNat 3 (w % 2 ^ nbits))

end Sys2Proof.Machine
end

