-- ==== Sys2Proof/Safety.lean ====
section
/-! DEFINITION. What a safe run is: the fault table of spec/60_exceptions.md R140 and the caller's
contract of spec/70_reset_and_hazards.md R175, written over numbers and apart from the meanings,
and the invariant that ties the ports and the fault record together (R25, R28, R141, R142). -/

namespace Sys2Proof

open Sys2Proof.Machine

/-- The table of R140, with the priority of R145: the fault that operation `i` meets on the operand
words `a` and `b`. -/
def tableFault (c : Config) (i : Instr) (a b : Word c.W) : Option FaultCode :=
  match i with
  | .isImm1 => none
  | .getPrefix => none
  | .getPrefixAndTag => none
  | .getTag => if 3 < a.toNat / 4 % 4 then some .tagOutOfRange else none
  | .getValueUnsigned =>
    if a.toNat % 4 = c.primaryImmediate.toNat then none else some .notImmediate1
  | .getValueSigned =>
    if a.toNat % 4 = c.primaryImmediate.toNat then none else some .notImmediate1
  | .combineUnsigned =>
    if 2 ^ 4 ≤ b.toNat then some .prefixOutOfRange
    else if 2 ^ (c.W - 4) ≤ a.toNat then some .unsignedPayloadOutOfRange
    else none
  | .combineSigned =>
    if 2 ^ 4 ≤ b.toNat then some .prefixOutOfRange
    else if a.toInt < c.minNegSmall ∨ c.maxPosSmall < a.toInt then some .smallOutOfRange
    else none

/-- The result of operation `i` as a number, by the pseudocode of its rule (R81, R84, R87, R90,
R101, R105, R121 with R122, R126 with R127), where it meets no fault. -/
def tableResult (c : Config) (i : Instr) (a b : Word c.W) : Nat :=
  match i with
  | .isImm1 => if a.toNat % 4 = c.primaryImmediate.toNat then 1 else 0
  | .getPrefix => a.toNat % 4
  | .getPrefixAndTag => a.toNat % 16
  | .getTag => a.toNat / 4 % 4
  | .getValueUnsigned => a.toNat / 16
  | .getValueSigned => (a.toInt / 16 % 2 ^ c.W).toNat
  | .combineUnsigned => b.toNat + a.toNat * 16
  | .combineSigned => b.toNat + a.toNat * 16 % 2 ^ c.W

/-- R175: what the caller owes before it issues operation `i`. -/
def callerContract (c : Config) (i : Instr) (a b : Word c.W) : Prop :=
  match i with
  | .isImm1 => True
  | .getPrefix => True
  | .getPrefixAndTag => True
  | .getTag => True
  | .getValueUnsigned => a.toNat % 4 = c.primaryImmediate.toNat
  | .getValueSigned => a.toNat % 4 = c.primaryImmediate.toNat
  | .combineUnsigned => b.toNat < 16 ∧ a.toNat < 2 ^ (c.W - 4)
  | .combineSigned => b.toNat < 16 ∧ c.minNegSmall ≤ a.toInt ∧ a.toInt ≤ c.maxPosSmall

/-- The output ports and the fault record are those of the operation on the input ports (R25, R28,
R141, R142). -/
def Machine.State.portsAgree (s : State) : Prop :=
  match tableFault s.cfg (decodeOp s.op) s.a s.b with
  | none =>
    s.fatal = 0#1 ∧ s.fcode = 0#3 ∧ s.faultRec = none ∧
    s.y.toNat = tableResult s.cfg (decodeOp s.op) s.a s.b
  | some code =>
    s.fatal = 1#1 ∧ s.fcode = code.code ∧
    s.faultRec = some { code := code, op := s.op, a := s.a, b := s.b }

/-- The machine's invariant: the codec is one the spec describes (R8, R173), its outputs are those of
its inputs, and the newest result of the run is the one on `y` unless the run has aborted. -/
def Machine.State.Inv (s : State) : Prop :=
  s.cfg.legal = true ∧ s.portsAgree ∧
  (s.faultRec = none → s.results ≠ [] → s.results.getLast? = some s.y)

end Sys2Proof
end

