-- ==== Sys2Proof/Certificates/Slice0/Obligations.lean ====
section
/-! DEFINITION. The statements for the provers. Each holds for every configuration of R6 to R8: the
constants are in `State.cfg`, over which the statements quantify. -/

open Sys2Proof Sys2Proof.Machine

/-! ### Encodings -/

/-- R66: the eight codes of the table, written out bit by bit, select the eight operations. -/
def Obligations.OpcodeWordsDecodeAsTabulated : Prop :=
  decodeTableWord 8 0b000 = some .isImm1 ∧
  decodeTableWord 8 0b001 = some .getPrefix ∧
  decodeTableWord 8 0b010 = some .getPrefixAndTag ∧
  decodeTableWord 8 0b011 = some .getTag ∧
  decodeTableWord 8 0b100 = some .getValueUnsigned ∧
  decodeTableWord 8 0b101 = some .getValueSigned ∧
  decodeTableWord 8 0b110 = some .combineUnsigned ∧
  decodeTableWord 8 0b111 = some .combineSigned

/-- R67: every value of `op[2:0]` is the code of the operation it decodes to and of no other, and no
code is refused; and every operation decodes from its own code. -/
def Obligations.EveryOpCodeIsExactlyOneOperation : Prop :=
  (∀ op : BitVec 3,
    decodeWord op.toNat = .ok (decodeOp op) ∧ encode (decodeOp op) = op ∧
    ∀ i, encode i = op → i = decodeOp op) ∧
  ∀ i : Instr, decodeOp (encode i) = i

/-- The op field has three bits and no more (the model's reading of R65, log 8): a command word
with a higher bit set is refused by name. -/
def Obligations.CommandWordsAboveThreeBitsRefused : Prop :=
  ∀ w : Nat, 8 ≤ w →
    decodeWord w = .error (.widerThanOp w) ∧
    ∀ nbits, w < 2 ^ nbits → decodeTableWord nbits w = none

/-- A well-formed script line is read back from its command, with every operand; and where the operation
reads no `b` the command puts 0 there (R71). -/
def Obligations.ScriptLineRoundTrip : Prop :=
  ∀ (W earlier : Nat) (l : ScriptLine), l.wf W earlier = true →
    decodeLine (encodeLine l) = l ∧ (encodeLine l).op = encode l.instr ∧
    (l.instr.readsB = false → (encodeLine l).b = .num 0)

/-- R56: the four subtypes have the codes 0 to 3, and no 2-bit code is left over. -/
def Obligations.SubtypeCodesCoverTwoBits : Prop :=
  SubtypeTag.pid.code = 0b00#2 ∧ SubtypeTag.port.code = 0b01#2 ∧
  SubtypeTag.imm2.code = 0b10#2 ∧ SubtypeTag.small.code = 0b11#2 ∧
  (∀ t : SubtypeTag, SubtypeTag.ofCode t.code = t) ∧
  ∀ c : BitVec 2, (SubtypeTag.ofCode c).code = c

/-! ### Value primitives -/

/-- R12: the two's-complement value of a Word, its pattern, and that they are inverse. -/
def Obligations.SignedAndUnsignedReadingsAreInverse : Prop :=
  ∀ W : Nat, 0 < W →
    (∀ u : Word W, u.toNat < 2 ^ W ∧
      toSigned u = (if u.toNat < 2 ^ (W - 1) then (u.toNat : Int) else u.toNat - 2 ^ W) ∧
      -2 ^ (W - 1) ≤ toSigned u ∧ toSigned u < 2 ^ (W - 1) ∧
      toUnsigned W (toSigned u) = u) ∧
    ∀ z : Int, -2 ^ (W - 1) ≤ z → z < 2 ^ (W - 1) →
      ((toUnsigned W z).toNat : Int) = z % 2 ^ W ∧ toSigned (toUnsigned W z) = z

/-- R11: a slice is `(v >>u lo) & (2^(hi-lo+1) - 1)`. -/
def Obligations.SliceIsShiftAndMask : Prop :=
  ∀ (W hi lo : Nat) (v : Word W), lo ≤ hi → hi < W →
    (slice v hi lo).toNat = v.toNat / 2 ^ lo &&& (2 ^ (hi - lo + 1) - 1)

/-- R14: zero extension, sign extension, and that the arithmetic shift of a Word by 4 is the sign
extension of its payload bits. -/
def Obligations.ExtensionsAndArithmeticShiftAgree : Prop :=
  (∀ (W n : Nat) (v : BitVec n), n < W → (zext W v).toNat = v.toNat) ∧
  (∀ (n : Nat) (v : BitVec n), 0 < n →
    sext v = (if v.getLsbD (n - 1) = false then (v.toNat : Int) else v.toNat - 2 ^ n)) ∧
  ∀ (c : Config) (u : Word c.W), shrS (toSigned u) 4 = sext (slice u (c.W - 1) 4)

/-- R59: both readings of the payload, their equalities with the shifts, and their ranges; the
payload's sign is the word's sign bit. -/
def Obligations.PayloadReadingsAndRanges : Prop :=
  ∀ (c : Config) (w : Word c.W),
    zext c.W (slice w (c.W - 1) 4) = shrU w 4 ∧
    (shrU w 4).toNat < 2 ^ (c.W - 4) ∧
    sext (slice w (c.W - 1) 4) = shrS (toSigned w) 4 ∧
    -2 ^ (c.W - 5) ≤ shrS (toSigned w) 4 ∧ shrS (toSigned w) 4 < 2 ^ (c.W - 5) ∧
    (shrS (toSigned w) 4 < 0 ↔ w.getLsbD (c.W - 1) = true)

/-- R57, R58: a word is valid exactly by its low two bits, and the prefix of a valid word with
subtype code `t` is `PRIMARY_IMMEDIATE | (t << 2)`, below 16. -/
def Obligations.ValidityAndPrefixOfWord : Prop :=
  ∀ (c : Config) (w : Word c.W),
    (isImmediate1 c w = true ↔ w.toNat % 4 = c.primaryImmediate.toNat) ∧
    ((slice w 3 0).toNat = (slice w 1 0).toNat ||| (slice w 3 2).toNat <<< 2) ∧
    (isImmediate1 c w = true →
      (slice w 3 0).toNat = c.primaryImmediate.toNat ||| (slice w 3 2).toNat <<< 2 ∧
      (slice w 3 0).toNat < 16)

/-! ### The operations -/

/-- R81: IS_IMM1 in full, its code and its frame with it. -/
def Obligations.IsImm1Result : Prop :=
  encode .isImm1 = 0b000#3 ∧
  ∀ s : State, s.cfg.legal = true →
    ∃ v : Word s.cfg.W,
      v.toNat = (if s.a.toNat % 4 = s.cfg.primaryImmediate.toNat then 1 else 0) ∧
      exec .isImm1 s =
        .next { s with y := v, fatal := 0#1, fcode := 0#3, results := s.results ++ [v] }

/-- R84: GET_PREFIX in full, its code and its frame with it. -/
def Obligations.GetPrefixResult : Prop :=
  encode .getPrefix = 0b001#3 ∧
  ∀ s : State, s.cfg.legal = true →
    ∃ v : Word s.cfg.W, v.toNat = s.a.toNat % 4 ∧
      exec .getPrefix s =
        .next { s with y := v, fatal := 0#1, fcode := 0#3, results := s.results ++ [v] }

/-- R87: GET_PREFIX_AND_TAG in full, its code and its frame with it. -/
def Obligations.GetPrefixAndTagResult : Prop :=
  encode .getPrefixAndTag = 0b010#3 ∧
  ∀ s : State, s.cfg.legal = true →
    ∃ v : Word s.cfg.W, v.toNat = s.a.toNat % 16 ∧
      exec .getPrefixAndTag s =
        .next { s with y := v, fatal := 0#1, fcode := 0#3, results := s.results ++ [v] }

/-- R90, R91, R92: GET_TAG gives bits 3:2 of any word, a value of 0 to 3, and never the fault its
defensive check names. -/
def Obligations.GetTagResult : Prop :=
  encode .getTag = 0b011#3 ∧
  ∀ s : State, s.cfg.legal = true →
    ∃ v : Word s.cfg.W, v.toNat = s.a.toNat / 4 % 4 ∧ v.toNat ≤ 3 ∧
      exec .getTag s =
        .next { s with y := v, fatal := 0#1, fcode := 0#3, results := s.results ++ [v] }

/-- R101: GET_VALUE_UNSIGNED in full: the result of a valid word of any subtype, and the fatal outcome
`NOT_IMMEDIATE1` of any other. -/
def Obligations.GetValueUnsignedResult : Prop :=
  encode .getValueUnsigned = 0b100#3 ∧
  ∀ s : State, s.cfg.legal = true →
    (s.a.toNat % 4 = s.cfg.primaryImmediate.toNat →
      ∃ v : Word s.cfg.W, v.toNat = s.a.toNat / 16 ∧ v.toNat < 2 ^ (s.cfg.W - 4) ∧
        exec .getValueUnsigned s =
          .next { s with y := v, fatal := 0#1, fcode := 0#3, results := s.results ++ [v] }) ∧
    (s.a.toNat % 4 ≠ s.cfg.primaryImmediate.toNat →
      ∃ anyY : Word s.cfg.W,
        exec .getValueUnsigned s =
          .next { s with
            y := anyY, fatal := 1#1, fcode := 1#3
            faultRec := some { code := .notImmediate1, op := 0b100#3, a := s.a, b := s.b } })

/-- R105: GET_VALUE_SIGNED in full: `y` is the pattern of the floor of the signed word by 16, a value
of `[-2^(W-5), 2^(W-5))`, whatever the Small bounds are. -/
def Obligations.GetValueSignedResult : Prop :=
  encode .getValueSigned = 0b101#3 ∧
  ∀ s : State, s.cfg.legal = true →
    (s.a.toNat % 4 = s.cfg.primaryImmediate.toNat →
      ∃ v : Word s.cfg.W, v.toInt = s.a.toInt / 16 ∧
        -2 ^ (s.cfg.W - 5) ≤ v.toInt ∧ v.toInt < 2 ^ (s.cfg.W - 5) ∧
        exec .getValueSigned s =
          .next { s with y := v, fatal := 0#1, fcode := 0#3, results := s.results ++ [v] }) ∧
    (s.a.toNat % 4 ≠ s.cfg.primaryImmediate.toNat →
      ∃ anyY : Word s.cfg.W,
        exec .getValueSigned s =
          .next { s with
            y := anyY, fatal := 1#1, fcode := 1#3
            faultRec := some { code := .notImmediate1, op := 0b101#3, a := s.a, b := s.b } })

/-- R121: COMBINE_UNSIGNED in full, its two checks in their order. -/
def Obligations.CombineUnsignedResult : Prop :=
  encode .combineUnsigned = 0b110#3 ∧
  ∀ s : State, s.cfg.legal = true →
    (s.b.toNat < 2 ^ 4 → s.a.toNat < 2 ^ (s.cfg.W - 4) →
      ∃ v : Word s.cfg.W, v = s.b ||| s.a <<< 4 ∧
        exec .combineUnsigned s =
          .next { s with y := v, fatal := 0#1, fcode := 0#3, results := s.results ++ [v] }) ∧
    (2 ^ 4 ≤ s.b.toNat →
      ∃ anyY : Word s.cfg.W,
        exec .combineUnsigned s =
          .next { s with
            y := anyY, fatal := 1#1, fcode := 3#3
            faultRec := some { code := .prefixOutOfRange, op := 0b110#3, a := s.a, b := s.b } }) ∧
    (s.b.toNat < 2 ^ 4 → 2 ^ (s.cfg.W - 4) ≤ s.a.toNat →
      ∃ anyY : Word s.cfg.W,
        exec .combineUnsigned s =
          .next { s with
            y := anyY, fatal := 1#1, fcode := 4#3
            faultRec := some
              { code := .unsignedPayloadOutOfRange, op := 0b110#3, a := s.a, b := s.b } })

/-- R126: COMBINE_SIGNED in full, its two checks in their order. -/
def Obligations.CombineSignedResult : Prop :=
  encode .combineSigned = 0b111#3 ∧
  ∀ s : State, s.cfg.legal = true →
    (s.b.toNat < 2 ^ 4 → s.cfg.minNegSmall ≤ s.a.toInt → s.a.toInt ≤ s.cfg.maxPosSmall →
      ∃ v : Word s.cfg.W, v = s.b ||| BitVec.ofInt s.cfg.W s.a.toInt <<< 4 ∧
        exec .combineSigned s =
          .next { s with y := v, fatal := 0#1, fcode := 0#3, results := s.results ++ [v] }) ∧
    (2 ^ 4 ≤ s.b.toNat →
      ∃ anyY : Word s.cfg.W,
        exec .combineSigned s =
          .next { s with
            y := anyY, fatal := 1#1, fcode := 3#3
            faultRec := some { code := .prefixOutOfRange, op := 0b111#3, a := s.a, b := s.b } }) ∧
    (s.b.toNat < 2 ^ 4 → (s.a.toInt < s.cfg.minNegSmall ∨ s.cfg.maxPosSmall < s.a.toInt) →
      ∃ anyY : Word s.cfg.W,
        exec .combineSigned s =
          .next { s with
            y := anyY, fatal := 1#1, fcode := 5#3
            faultRec := some { code := .smallOutOfRange, op := 0b111#3, a := s.a, b := s.b } })

/-! ### What the operations promise of each other -/

/-- R85: GET_PREFIX gives `PRIMARY_IMMEDIATE` exactly when IS_IMM1 gives 1, and it equals a prefix
constant only in the constant's subtype Pid. -/
def Obligations.PrefixComparisonDecidesValidity : Prop :=
  ∀ s : State, s.cfg.legal = true →
    ∃ p q : State, exec .getPrefix s = .next p ∧ exec .isImm1 s = .next q ∧
      (p.y.toNat = s.cfg.primaryImmediate.toNat ↔ q.y.toNat = 1) ∧
      (∀ t, p.y.toNat = (s.pfx t).toNat → t = .pid) ∧
      (p.y.toNat = (s.pfx .pid).toNat ↔ q.y.toNat = 1)

/-- R88: GET_PREFIX_AND_TAG equals the prefix constant of a subtype exactly when the word is a valid
Immediate1 word of that subtype. -/
def Obligations.PrefixAndTagIdentifiesSubtype : Prop :=
  ∀ (s : State) (t : SubtypeTag), s.cfg.legal = true →
    ∃ p : State, exec .getPrefixAndTag s = .next p ∧
      (p.y.toNat = (s.pfx t).toNat ↔
        s.a.toNat % 4 = s.cfg.primaryImmediate.toNat ∧ s.a.toNat / 4 % 4 = t.code.toNat)

/-- R106: where the right shift is logical only, GET_VALUE_SIGNED may shift the unsigned bits and OR
ones into the top four where bit `W-5` is set; `y` is the same for every valid word. -/
def Obligations.SignFillByMaskGivesTheSameValue : Prop :=
  ∀ s : State, s.cfg.legal = true → s.a.toNat % 4 = s.cfg.primaryImmediate.toNat →
    ∃ u v : Word s.cfg.W, u = s.a >>> 4 ∧
      v = (if u.getLsbD (s.cfg.W - 5) then u ||| BitVec.ofNat s.cfg.W 0xF <<< (s.cfg.W - 4)
        else u) ∧
      exec .getValueSigned s =
        .next { s with y := v, fatal := 0#1, fcode := 0#3, results := s.results ++ [v] }

/-- R107: on a valid word the two extractions agree in bits `W-5:0`, which are the word's payload;
above them the unsigned one has zeros and the signed one copies of the word's top bit. -/
def Obligations.PayloadMuxDiffersOnlyInTopFourBits : Prop :=
  ∀ s : State, s.cfg.legal = true → s.a.toNat % 4 = s.cfg.primaryImmediate.toNat →
    ∃ u v : Word s.cfg.W,
      exec .getValueUnsigned s =
        .next { s with y := u, fatal := 0#1, fcode := 0#3, results := s.results ++ [u] } ∧
      exec .getValueSigned s =
        .next { s with y := v, fatal := 0#1, fcode := 0#3, results := s.results ++ [v] } ∧
      (∀ k, k < s.cfg.W - 4 →
        u.getLsbD k = s.a.getLsbD (k + 4) ∧ v.getLsbD k = s.a.getLsbD (k + 4)) ∧
      (∀ k, s.cfg.W - 4 ≤ k → k < s.cfg.W →
        u.getLsbD k = false ∧ v.getLsbD k = s.a.getLsbD (s.cfg.W - 1)) ∧
      (s.a.getLsbD (s.cfg.W - 1) = false → u = v)

/-- R122: an accepted unsigned composition is the sum, with the prefix and the value each whole in its
own field. -/
def Obligations.UnsignedCompositionLosesNoBit : Prop :=
  ∀ s : State, s.cfg.legal = true → s.b.toNat < 2 ^ 4 → s.a.toNat < 2 ^ (s.cfg.W - 4) →
    ∃ t : State, exec .combineUnsigned s = .next t ∧
      t.y.toNat = s.b.toNat + s.a.toNat * 16 ∧
      t.y.toNat % 16 = s.b.toNat ∧ t.y.toNat / 16 = s.a.toNat

/-- R127: an accepted signed composition is the prefix with `(toUnsigned(value) * 16) mod 2^W`, and the
four bits the shift discards are copies of the sign, so the value is still there. -/
def Obligations.SignedCompositionLosesNoBit : Prop :=
  ∀ s : State, s.cfg.legal = true → s.b.toNat < 2 ^ 4 →
    s.cfg.minNegSmall ≤ s.a.toInt → s.a.toInt ≤ s.cfg.maxPosSmall →
    ∃ t : State, exec .combineSigned s = .next t ∧
      t.y.toNat = s.b.toNat + s.a.toNat * 16 % 2 ^ s.cfg.W ∧
      t.y.toInt / 16 = s.a.toInt ∧
      ∀ k, s.cfg.W - 5 ≤ k → k < s.cfg.W → s.a.getLsbD k = s.a.getLsbD (s.cfg.W - 1)

/-- R123, the round trip of every tag and every unsigned payload: none of the four operations
faults. -/
def Obligations.UnsignedRoundTrip : Prop :=
  ∀ (s : State) (t : BitVec 2) (v p : Word s.cfg.W), s.cfg.legal = true →
    v.toNat < 2 ^ (s.cfg.W - 4) → p.toNat = s.cfg.primaryImmediate.toNat ||| t.toNat <<< 2 →
    ∃ w one tag val : Word s.cfg.W,
      exec .combineUnsigned { s with a := v, b := p } =
        .next { s with
          a := v, b := p, y := w, fatal := 0#1, fcode := 0#3, results := s.results ++ [w] } ∧
      exec .isImm1 { s with a := w } =
        .next { s with
          a := w, y := one, fatal := 0#1, fcode := 0#3, results := s.results ++ [one] } ∧
      exec .getTag { s with a := w } =
        .next { s with
          a := w, y := tag, fatal := 0#1, fcode := 0#3, results := s.results ++ [tag] } ∧
      exec .getValueUnsigned { s with a := w } =
        .next { s with
          a := w, y := val, fatal := 0#1, fcode := 0#3, results := s.results ++ [val] } ∧
      one.toNat = 1 ∧ tag.toNat = t.toNat ∧ val = v

/-- R128, the round trip of every Small between the bounds: none of the four operations faults. -/
def Obligations.SignedRoundTrip : Prop :=
  ∀ (s : State) (v p : Word s.cfg.W), s.cfg.legal = true →
    s.cfg.minNegSmall ≤ v.toInt → v.toInt ≤ s.cfg.maxPosSmall →
    p.toNat = (s.pfx .small).toNat →
    ∃ w one tag val : Word s.cfg.W,
      exec .combineSigned { s with a := v, b := p } =
        .next { s with
          a := v, b := p, y := w, fatal := 0#1, fcode := 0#3, results := s.results ++ [w] } ∧
      exec .isImm1 { s with a := w } =
        .next { s with
          a := w, y := one, fatal := 0#1, fcode := 0#3, results := s.results ++ [one] } ∧
      exec .getTag { s with a := w } =
        .next { s with
          a := w, y := tag, fatal := 0#1, fcode := 0#3, results := s.results ++ [tag] } ∧
      exec .getValueSigned { s with a := w } =
        .next { s with
          a := w, y := val, fatal := 0#1, fcode := 0#3, results := s.results ++ [val] } ∧
      one.toNat = 1 ∧ tag.toNat = 3 ∧ val = v

/-- R130: the four constant outputs are `PRIMARY_IMMEDIATE | (code << 2)`, and no operation changes
them. -/
def Obligations.PrefixOutputsAreTheConstants : Prop :=
  ∀ s : State,
    (s.pfx .pid).toNat = s.cfg.primaryImmediate.toNat ||| 0 <<< 2 ∧
    (s.pfx .port).toNat = s.cfg.primaryImmediate.toNat ||| 1 <<< 2 ∧
    (s.pfx .imm2).toNat = s.cfg.primaryImmediate.toNat ||| 2 <<< 2 ∧
    (s.pfx .small).toNat = s.cfg.primaryImmediate.toNat ||| 3 <<< 2 ∧
    ∀ (i : Instr) (t : State), exec i s = .next t → ∀ k, t.pfx k = s.pfx k

/-- R131: every prefix constant is below 16 with `PRIMARY_IMMEDIATE` in its low bits, so either
composition accepts it and makes a valid Immediate1 word with it. -/
def Obligations.PrefixConstantsMakeValidWords : Prop :=
  ∀ (s : State) (k : SubtypeTag), s.cfg.legal = true → s.b.toNat = (s.pfx k).toNat →
    (s.pfx k).toNat < 2 ^ 4 ∧ (s.pfx k).toNat % 4 = s.cfg.primaryImmediate.toNat ∧
    (s.a.toNat < 2 ^ (s.cfg.W - 4) →
      ∃ t : State, exec .combineUnsigned s = .next t ∧ t.fatal = 0#1 ∧
        t.y.toNat % 4 = s.cfg.primaryImmediate.toNat) ∧
    (s.cfg.minNegSmall ≤ s.a.toInt → s.a.toInt ≤ s.cfg.maxPosSmall →
      ∃ t : State, exec .combineSigned s = .next t ∧ t.fatal = 0#1 ∧
        t.y.toNat % 4 = s.cfg.primaryImmediate.toNat)

/-- R82: a word is classified by its low two bits alone. -/
def Obligations.ClassificationIsMembership : Prop :=
  ∀ s : State, s.cfg.legal = true →
    ∃ t : State, exec .isImm1 s = .next t ∧
      (s.a.toNat % 4 ≠ s.cfg.primaryImmediate.toNat → t.y.toNat = 0) ∧
      (s.a.toNat % 4 = s.cfg.primaryImmediate.toNat → t.y.toNat = 1)

/-! ### The fatal outcome -/

/-- R140: every operation is fatal exactly under the table's condition and with the table's code, and
an operation that is not fatal drives `fatal = 0` and `fcode = 0`. -/
def Obligations.FatalExactlyAsTabulated : Prop :=
  FaultCode.notImmediate1.code = 1#3 ∧ FaultCode.tagOutOfRange.code = 2#3 ∧
  FaultCode.prefixOutOfRange.code = 3#3 ∧ FaultCode.unsignedPayloadOutOfRange.code = 4#3 ∧
  FaultCode.smallOutOfRange.code = 5#3 ∧
  ∀ (i : Instr) (s : State), s.cfg.legal = true →
    ∃ t : State, exec i s = .next t ∧
      match tableFault s.cfg i s.a s.b with
      | none => t.fatal = 0#1 ∧ t.fcode = 0#3
      | some code => t.fatal = 1#1 ∧ t.fcode = code.code

/-- R142 with R28 and R141: what a fatal outcome records and drives, and that it changes nothing else. -/
def Obligations.FatalOutcomeRecordsTheOperation : Prop :=
  ∀ (i : Instr) (s : State) (code : FaultCode), s.cfg.legal = true →
    tableFault s.cfg i s.a s.b = some code →
    ∃ anyY : Word s.cfg.W,
      exec i s =
        .next { s with
          y := anyY, fatal := 1#1, fcode := code.code
          faultRec := some { code := code, op := encode i, a := s.a, b := s.b } }

/-- R120, R145: where a composition fails both checks, the prefix check is the one reported. -/
def Obligations.PrefixFaultHasPriority : Prop :=
  ∀ s : State, s.cfg.legal = true → 2 ^ 4 ≤ s.b.toNat →
    (2 ^ (s.cfg.W - 4) ≤ s.a.toNat →
      ∃ t : State, exec .combineUnsigned s = .next t ∧ t.fatal = 1#1 ∧ t.fcode = 3#3) ∧
    ((s.a.toInt < s.cfg.minNegSmall ∨ s.cfg.maxPosSmall < s.a.toInt) →
      ∃ t : State, exec .combineSigned s = .next t ∧ t.fatal = 1#1 ∧ t.fcode = 3#3)

/-- R175: a caller that meets an operation's obligation gets a result and no fault, with every
operation. -/
def Obligations.CallersContractPreventsFaults : Prop :=
  ∀ (i : Instr) (s : State), s.cfg.legal = true → callerContract s.cfg i s.a s.b →
    ∃ v : Word s.cfg.W, v.toNat = tableResult s.cfg i s.a s.b ∧
      exec i s =
        .next { s with y := v, fatal := 0#1, fcode := 0#3, results := s.results ++ [v] }

/-- R173: a codec whose bounds break R8 is refused by every operation. -/
def Obligations.IllegalConfigurationRefused : Prop :=
  ∀ (i : Instr) (s : State),
    ¬(-2 ^ (s.cfg.W - 5) ≤ s.cfg.minNegSmall ∧ s.cfg.minNegSmall ≤ s.cfg.maxPosSmall ∧
      s.cfg.maxPosSmall ≤ 2 ^ (s.cfg.W - 5) - 1) →
    exec i s = .refused .illegalConfiguration

/-! ### Independence and constancy -/

/-- R26: the port `b` has no effect on the result of an operation that does not read it, nor on whether
it is fatal. -/
def Obligations.UnreadPortHasNoEffect : Prop :=
  ∀ (i : Instr) (s : State) (b' : Word s.cfg.W), s.cfg.legal = true → i.readsB = false →
    ∃ t t' : State, exec i s = .next t ∧ exec i { s with b := b' } = .next t' ∧
      t'.fatal = t.fatal ∧ t'.fcode = t.fcode ∧
      (t.fatal = 0#1 → t'.y.toNat = t.y.toNat)

/-- R25, R45: the outputs are functions of the operation, its operands and the configuration alone:
whatever else the state holds, and whatever came before, they are the same. -/
def Obligations.OutputsDependOnInputsAlone : Prop :=
  ∀ (i : Instr) (s : State) (y' : Word s.cfg.W) (fatal' : BitVec 1) (op' fcode' : BitVec 3)
    (faultRec' : Option (FaultRecord s.cfg.W)) (pending' : List Command)
    (results' : List (Word s.cfg.W)), s.cfg.legal = true →
    ∃ t t' : State, exec i s = .next t ∧
      exec i { s with
        op := op', y := y', fatal := fatal', fcode := fcode', faultRec := faultRec'
        pending := pending', results := results' } = .next t' ∧
      t'.y.toNat = t.y.toNat ∧ t'.fatal = t.fatal ∧ t'.fcode = t.fcode

/-- R27: no step changes the configuration constants. -/
def Obligations.ConfigurationNeverChanges : Prop :=
  ∀ s t : State, step s = .next t → t.cfg = s.cfg

/-- R144: a step leaves the results of the operations before it as they were; it adds its own result
if it has one, and a fatal one adds none. -/
def Obligations.EarlierResultsAreKept : Prop :=
  ∀ s t : State, step s = .next t →
    t.results.map BitVec.toNat = s.results.map BitVec.toNat ∨
    (t.fatal = 0#1 ∧
      t.results.map BitVec.toNat = s.results.map BitVec.toNat ++ [t.y.toNat])

/-! ### The step -/

/-- A step drives the ports with the next pending command, takes it off the queue, and is `exec` of
the operation its code decodes to (R22). -/
def Obligations.StepRunsTheDecodedOperation : Prop :=
  ∀ (s : State) (c : Command) (rest : List Command) (a b : Word s.cfg.W),
    s.faultRec = none → s.pending = c :: rest →
    s.operand c.a = some a → s.operand c.b = some b →
    step s = exec (decodeOp c.op) { s with op := c.op, a := a, b := b, pending := rest }

/-- With nothing pending and no fault recorded, a step changes nothing (the model's choice, log 6). -/
def Obligations.IdleStepChangesNothing : Prop :=
  ∀ s : State, s.faultRec = none → s.pending = [] → step s = .next s

/-- R143: once the fault record is set the run has ended, with no success: no further operation is
issued, by the next step or by any longer run. Of `succeeded` only the half that R143 states enters;
when a run without a fault has succeeded is the model's choice (log 14). -/
def Obligations.FatalOutcomeEndsTheRun : Prop :=
  ∀ (s : State) (r : FaultRecord s.cfg.W), s.faultRec = some r →
    s.succeeded = false ∧ (∀ t, step s ≠ .next t) ∧ ∀ k t, core.run (k + 1) s ≠ .next t

/-- The model's way of showing an aborted run (log 4): every step of it is one fault, with the recorded
code. -/
def Obligations.AbortedRunFaultsAtEveryStep : Prop :=
  ∀ (s : State) (r : FaultRecord s.cfg.W), s.faultRec = some r →
    step s = .fault (.runAborted r.code)

/-- When a step stops: with a fault only in a run that has aborted (R143); with a refusal only for a
configuration the spec does not describe (R173) or an operand R71 gives no value (log 7). -/
def Obligations.StepStopsOnlyForTheseReasons : Prop :=
  ∀ s : State,
    (∀ f, step s = .fault f → ∃ r, s.faultRec = some r ∧ f = .runAborted r.code) ∧
    ∀ r, step s = .refused r →
      s.faultRec = none ∧ ∃ c rest, s.pending = c :: rest ∧
        ((r = .illegalConfiguration ∧ s.cfg.legal = false) ∨
         (r = .operandNotDefined ∧ (s.operand c.a = none ∨ s.operand c.b = none)))

/-- The values of the operand forms of R71, and the forms it gives no value (log 7): numerals that fit,
negative ones as their pattern; earlier results in order (log 7); the six named constants. -/
def Obligations.OperandFormsHaveTheirValues : Prop :=
  ∀ s : State,
    (∀ v : Int, 0 ≤ v → v < 2 ^ s.cfg.W → ∃ w, s.operand (.num v) = some w ∧ w.toNat = v.toNat) ∧
    (∀ v : Int, v < 0 → -2 ^ (s.cfg.W - 1) ≤ v →
      ∃ w, s.operand (.num v) = some w ∧ w.toInt = v) ∧
    (∀ v : Int, (v < -2 ^ (s.cfg.W - 1) ∨ 2 ^ s.cfg.W ≤ v) → s.operand (.num v) = none) ∧
    (∀ (m : Nat) (v : Word s.cfg.W), s.results[m]? = some v →
      s.operand (.result (m + 1)) = some v) ∧
    (∀ m, s.results.length ≤ m → s.operand (.result (m + 1)) = none) ∧
    s.operand (.result 0) = none ∧
    (∀ t, ∃ w, s.operand (.const (.prefixOf t)) = some w ∧ w.toNat = (s.pfx t).toNat) ∧
    (s.cfg.legal = true →
      (∃ w, s.operand (.const .minNegSmall) = some w ∧ w.toInt = s.cfg.minNegSmall) ∧
      ∃ w, s.operand (.const .maxPosSmall) = some w ∧ w.toInt = s.cfg.maxPosSmall)

/-- The well-formed lines of a script are those the environment can issue: their operands have values
once `earlier` results are there (R71, log 7). -/
def Obligations.WellFormedLinesCanBeIssued : Prop :=
  ∀ (s : State) (l : ScriptLine) (rest : List Command), s.cfg.legal = true →
    l.wf s.cfg.W s.results.length = true → s.faultRec = none →
    s.pending = encodeLine l :: rest →
    ∃ t : State, step s = .next t ∧ t.pending = rest ∧ t.op = encode l.instr

/-- A command word placed for the next step is the operation that step runs (log 5). -/
def Obligations.PlacedCommandWordRunsNext : Prop :=
  ∀ (s : State) (nbits w : Nat) (i : Instr), s.faultRec = none →
    decodeTableWord nbits w = some i →
    step (s.withFetchWord nbits w) = exec i { s with op := encode i }

/-! ### Reset and the invariant -/

/-- R29: right after reset the fault record is `none` and no operation has been issued. -/
def Obligations.ResetHasNoFaultRecord : Prop :=
  State.reset.faultRec = none ∧ State.reset.pending = [] ∧ State.reset.results = [] ∧
  step State.reset = .next State.reset

/-- The invariant holds at reset, in the build the model chose (logs 1, 3). -/
def Obligations.ResetMeetsTheInvariant : Prop := State.reset.Inv

/-- R25, R28, R141, R142: in whatever state the invariant holds, it holds after every step: the codec stays
one the spec describes, the output ports carry the outcome of the operation on the input ports,
and the fault record is set exactly when that operation is fatal, with its code, op and operands. -/
def Obligations.EveryStepKeepsTheInvariant : Prop :=
  ∀ s t : State, s.Inv → step s = .next t → t.Inv
end

