-- ==== Sys2Proof/Laws/State.lean ====
section
/-! SUPPORT. One lemma per field per update of the state. -/

namespace Sys2Proof.Machine.State

variable (s : State)

section deliver
variable (v : Word s.cfg.W)

@[simp] theorem deliver_cfg : (s.deliver v).cfg = s.cfg := rfl
@[simp] theorem deliver_op : (s.deliver v).op = s.op := rfl
@[simp] theorem deliver_a : (s.deliver v).a = s.a := rfl
@[simp] theorem deliver_b : (s.deliver v).b = s.b := rfl
@[simp] theorem deliver_y : (s.deliver v).y = v := rfl
@[simp] theorem deliver_fatal : (s.deliver v).fatal = 0#1 := rfl
@[simp] theorem deliver_fcode : (s.deliver v).fcode = 0#3 := rfl
@[simp] theorem deliver_faultRec : (s.deliver v).faultRec = s.faultRec := rfl
@[simp] theorem deliver_pending : (s.deliver v).pending = s.pending := rfl
@[simp] theorem deliver_results : (s.deliver v).results = s.results ++ [v] := rfl

end deliver

section raiseFatal
variable (i : Instr) (code : FaultCode)

@[simp] theorem raiseFatal_cfg : (s.raiseFatal i code).cfg = s.cfg := rfl
@[simp] theorem raiseFatal_op : (s.raiseFatal i code).op = s.op := rfl
@[simp] theorem raiseFatal_a : (s.raiseFatal i code).a = s.a := rfl
@[simp] theorem raiseFatal_b : (s.raiseFatal i code).b = s.b := rfl
@[simp] theorem raiseFatal_fatal : (s.raiseFatal i code).fatal = 1#1 := rfl
@[simp] theorem raiseFatal_fcode : (s.raiseFatal i code).fcode = code.code := rfl
@[simp] theorem raiseFatal_faultRec :
    (s.raiseFatal i code).faultRec =
      some { code := code, op := encode i, a := s.a, b := s.b } := rfl
@[simp] theorem raiseFatal_pending : (s.raiseFatal i code).pending = s.pending := rfl
@[simp] theorem raiseFatal_results : (s.raiseFatal i code).results = s.results := rfl

end raiseFatal

section present
variable (op : BitVec 3) (a b : Word s.cfg.W) (rest : List Command)

@[simp] theorem present_cfg : (s.present op a b rest).cfg = s.cfg := rfl
@[simp] theorem present_op : (s.present op a b rest).op = op := rfl
@[simp] theorem present_a : (s.present op a b rest).a = a := rfl
@[simp] theorem present_b : (s.present op a b rest).b = b := rfl
@[simp] theorem present_y : (s.present op a b rest).y = s.y := rfl
@[simp] theorem present_fatal : (s.present op a b rest).fatal = s.fatal := rfl
@[simp] theorem present_fcode : (s.present op a b rest).fcode = s.fcode := rfl
@[simp] theorem present_faultRec : (s.present op a b rest).faultRec = s.faultRec := rfl
@[simp] theorem present_pending : (s.present op a b rest).pending = rest := rfl
@[simp] theorem present_results : (s.present op a b rest).results = s.results := rfl

end present

section placeFirst
variable (op : BitVec 3)

@[simp] theorem placeFirst_cfg : (s.placeFirst op).cfg = s.cfg := rfl
@[simp] theorem placeFirst_a : (s.placeFirst op).a = s.a := rfl
@[simp] theorem placeFirst_b : (s.placeFirst op).b = s.b := rfl
@[simp] theorem placeFirst_faultRec : (s.placeFirst op).faultRec = s.faultRec := rfl
@[simp] theorem placeFirst_results : (s.placeFirst op).results = s.results := rfl
@[simp] theorem placeFirst_pending :
    (s.placeFirst op).pending =
      { op := op, a := .num s.a.toNat, b := .num s.b.toNat } :: s.pending := rfl

end placeFirst

end Sys2Proof.Machine.State
end

