-- ==== Sys2Proof/Laws/Primitives.lean ====
section
/-! SUPPORT. One lemma per primitive of Machine/Operands.lean and per check of Machine/Flags.lean: its
value over numbers. -/

namespace Sys2Proof

theorem Width.bits_cases (w : Width) : w.bits = 32 ∨ w.bits = 64 := by
  cases w <;> simp [Width.bits]

theorem Config.W_cases (c : Config) : c.W = 32 ∨ c.W = 64 := c.width.bits_cases

/-- Every Word has room for the prefix and the sign (R6). -/
theorem Config.four_lt_W (c : Config) : 4 < c.W := by
  have := c.W_cases; omega

/-- The Word's range is sixteen payload ranges (R9, R55). -/
theorem Config.two_pow_W (c : Config) : 2 ^ c.W = 2 ^ (c.W - 4) * 16 := by
  have h := c.four_lt_W
  rw [show (16 : Nat) = 2 ^ 4 from rfl, ← Nat.pow_add]
  congr 1; omega

/-- A prefix or a tag is a Word (R9). -/
theorem Config.lt_two_pow_W (c : Config) {k : Nat} (h : k < 16) : k < 2 ^ c.W := by
  have := c.two_pow_W
  have := Nat.two_pow_pos (c.W - 4)
  omega

theorem Config.primaryImmediate_lt (c : Config) : c.primaryImmediate.toNat < 4 :=
  c.primaryImmediate.isLt

theorem Config.legal_iff (c : Config) :
    c.legal = true ↔
      -2 ^ (c.W - 5) ≤ c.minNegSmall ∧ c.minNegSmall ≤ c.maxPosSmall ∧
      c.maxPosSmall ≤ 2 ^ (c.W - 5) - 1 := by
  simp [Config.legal, and_assoc]

namespace Machine

theorem toSigned_eq_toInt {W : Nat} (u : Word W) : toSigned u = u.toInt := by
  cases W with
  | zero => simp [toSigned, BitVec.eq_nil u]
  | succ n =>
    have h := Nat.pow_succ 2 n
    unfold toSigned
    rw [BitVec.toInt_eq_toNat_cond, Nat.add_sub_cancel]
    by_cases hu : u.toNat < 2 ^ n
    · rw [if_pos hu, if_pos (by omega)]
    · rw [if_neg hu, if_neg (by omega)]; push_cast; rfl

/-- The two cases of a signed reading, in the form `omega` takes (R12). -/
theorem toInt_cases {W : Nat} (u : Word W) :
    (u.toNat < 2 ^ (W - 1) ∧ u.toInt = u.toNat) ∨
    (2 ^ (W - 1) ≤ u.toNat ∧ u.toInt = (u.toNat : Int) - 2 ^ W) := by
  rw [← toSigned_eq_toInt, toSigned]
  by_cases h : u.toNat < 2 ^ (W - 1)
  · exact .inl ⟨h, if_pos h⟩
  · exact .inr ⟨by omega, if_neg h⟩

theorem toUnsigned_toSigned {W : Nat} (u : Word W) : toUnsigned W (toSigned u) = u := by
  rw [toSigned_eq_toInt, toUnsigned, BitVec.ofInt_toInt]

@[simp] theorem slice_toNat {W : Nat} (v : Word W) (hi lo : Nat) :
    (slice v hi lo).toNat = v.toNat / 2 ^ lo % 2 ^ (hi - lo + 1) := by
  simp [slice, BitVec.extractLsb, BitVec.extractLsb'_toNat, Nat.shiftRight_eq_div_pow]

theorem zext_toNat {W n : Nat} (v : BitVec n) (h : n ≤ W) : (zext W v).toNat = v.toNat := by
  rw [zext, BitVec.toNat_setWidth]
  exact Nat.mod_eq_of_lt (Nat.lt_of_lt_of_le v.isLt (Nat.pow_le_pow_right (by decide) h))

theorem sext_eq_toInt {n : Nat} (v : BitVec n) : sext v = v.toInt := by
  rw [sext, BitVec.toInt_eq_msb_cond, BitVec.msb_eq_getLsbD_last]
  cases v.getLsbD (n - 1) <;> simp

@[simp] theorem shrU_toNat {W : Nat} (u : Word W) (n : Nat) :
    (shrU u n).toNat = u.toNat / 2 ^ n := by
  simp [shrU, Nat.shiftRight_eq_div_pow]

@[simp] theorem shl_toNat {W : Nat} (u : Word W) (n : Nat) :
    (shl u n).toNat = u.toNat * 2 ^ n % 2 ^ W := by
  simp [shl, Nat.shiftLeft_eq]

/-- OR with a prefix is addition: the low four bits are free (R60, R122). -/
theorem prefix_or_shl_toNat (c : Config) (p u : Word c.W) (hp : p.toNat < 2 ^ 4) :
    (p ||| shl u 4).toNat = p.toNat + u.toNat * 16 % 2 ^ c.W := by
  have hm : u.toNat * 16 % 2 ^ c.W = u.toNat % 2 ^ (c.W - 4) * 2 ^ 4 := by
    rw [c.two_pow_W, Nat.mul_mod_mul_right]; rfl
  rw [BitVec.toNat_or, shl_toNat, show (2 : Nat) ^ 4 = 16 from rfl, hm, Nat.lor_comm,
    Nat.mul_comm, ← Nat.two_pow_add_eq_or_of_lt hp, Nat.add_comm]

/-- OR with a shifted tag is addition: the low two bits are free (R58, R130). -/
theorem tag_or_shift (p t : Nat) (hp : p < 4) : p ||| t <<< 2 = p + 4 * t := by
  rw [Nat.shiftLeft_eq, Nat.lor_comm, Nat.mul_comm,
    ← Nat.two_pow_add_eq_or_of_lt (show p < 2 ^ 2 from hp)]
  omega

/-- The payload bits of a Word are the Word by 16 (R59). -/
theorem payload_slice_toNat (c : Config) (u : Word c.W) :
    (slice u (c.W - 1) 4).toNat = u.toNat / 16 := by
  have hu := u.isLt
  have h4 := c.four_lt_W
  rw [slice_toNat, show c.W - 1 - 4 + 1 = c.W - 4 by omega]
  rw [c.two_pow_W] at hu
  exact Nat.mod_eq_of_lt (by omega)

theorem prefixConst_toNat (c : Config) (t : SubtypeTag) :
    (prefixConst c t).toNat = c.primaryImmediate.toNat + 4 * t.code.toNat := by
  rw [← tag_or_shift _ _ c.primaryImmediate_lt, prefixConst, BitVec.toNat_or]
  generalize c.primaryImmediate = p
  cases t <;> revert p <;> decide

theorem numeralFits_iff (W : Nat) (v : Int) :
    numeralFits W v = true ↔ -2 ^ (W - 1) ≤ v ∧ v < 2 ^ W := by simp [numeralFits]

theorem isImmediate1_iff (c : Config) (w : Word c.W) :
    isImmediate1 c w = true ↔ w.toNat % 4 = c.primaryImmediate.toNat := by
  rw [isImmediate1, beq_iff_eq, ← BitVec.toNat_inj, slice_toNat]; simp

/-- R92: the defensive check of GET_TAG never fires. -/
@[simp] theorem tagInRange_eq_true (t : BitVec 2) : tagInRange t = true := by
  have := t.isLt; simp only [tagInRange, decide_eq_true_eq]; omega

@[simp] theorem prefixInRange_iff {W : Nat} (b : Word W) :
    prefixInRange b = true ↔ b.toNat < 16 := by simp [prefixInRange, prefixBits]

@[simp] theorem unsignedInRange_iff {W : Nat} (a : Word W) :
    unsignedInRange a = true ↔ a.toNat < 2 ^ (W - 4) := by simp [unsignedInRange]

@[simp] theorem smallInRange_iff (c : Config) (v : Int) :
    smallInRange c v = true ↔ c.minNegSmall ≤ v ∧ v ≤ c.maxPosSmall := by simp [smallInRange]

end Machine

end Sys2Proof
end

