-- ==== Sys2Proof/Laws/Ops.lean ====
section
/-! SUPPORT. What the shared operations and a step can do, said once. -/

namespace Sys2Proof

@[simp] theorem decodeOp_encode (i : Instr) : decodeOp (encode i) = i := by cases i <;> rfl

@[simp] theorem encode_decodeOp (op : BitVec 3) : encode (decodeOp op) = op := by
  revert op; decide

namespace Machine

theorem conclude_ok (i : Instr) (s : State) (v : Word s.cfg.W) (h : s.cfg.legal = true) :
    conclude i s (.ok v) = .next (s.deliver v) := by simp [conclude, h]

theorem conclude_fatal (i : Instr) (s : State) (code : FaultCode) (h : s.cfg.legal = true) :
    conclude i s (.fatal code) = .next (s.raiseFatal i code) := by simp [conclude, h]

theorem conclude_illegal (i : Instr) (s : State) (o : OpOutcome s.cfg.W)
    (h : s.cfg.legal = false) : conclude i s o = .refused .illegalConfiguration := by
  simp [conclude, h]

/-- Everything an operation's end can do. -/
theorem conclude_next {i : Instr} {s t : State} {o : OpOutcome s.cfg.W}
    (h : conclude i s o = .next t) :
    s.cfg.legal = true ∧
      ((∃ v, o = .ok v ∧ t = s.deliver v) ∨ (∃ c, o = .fatal c ∧ t = s.raiseFatal i c)) := by
  cases hl : s.cfg.legal with
  | false => rw [conclude_illegal i s o hl] at h; cases h
  | true =>
    cases o with
    | ok v =>
      rw [conclude_ok i s v hl] at h; cases h
      exact ⟨rfl, .inl ⟨v, rfl, rfl⟩⟩
    | fatal c =>
      rw [conclude_fatal i s c hl] at h; cases h
      exact ⟨rfl, .inr ⟨c, rfl, rfl⟩⟩

/-- Every operation ends through `conclude`. -/
theorem exec_eq_conclude (i : Instr) (s : State) : ∃ o, exec i s = conclude i s o := by
  cases i <;>
    simp only [exec, execIsImm1, execGetPrefix, execGetPrefixAndTag, execGetTag,
      execGetValueUnsigned, execGetValueSigned, execCombineUnsigned, execCombineSigned] <;>
    exact ⟨_, rfl⟩

/-- No operation writes the configuration constants (R27). -/
theorem exec_cfg {i : Instr} {s t : State} (h : exec i s = .next t) : t.cfg = s.cfg := by
  obtain ⟨o, ho⟩ := exec_eq_conclude i s
  rw [ho] at h
  rcases (conclude_next h).2 with ⟨v, _, rfl⟩ | ⟨c, _, rfl⟩ <;> rfl

theorem issueNext_aborted {s : State} {r : FaultRecord s.cfg.W} (h : s.faultRec = some r) :
    s.issueNext = .aborted r.code := by simp [State.issueNext, h]

theorem issueNext_idle {s : State} (h : s.faultRec = none) (hp : s.pending = []) :
    s.issueNext = .idle := by simp [State.issueNext, h, hp]

theorem issueNext_operation {s : State} {c : Command} {rest : List Command}
    {a b : Word s.cfg.W} (h : s.faultRec = none) (hp : s.pending = c :: rest)
    (ha : s.operand c.a = some a) (hb : s.operand c.b = some b) :
    s.issueNext = .operation (decodeOp c.op) (s.present c.op a b rest) := by
  simp [State.issueNext, h, hp, ha, hb]

/-- Everything a step that answers a next state can do: nothing, or one issued operation. -/
theorem step_next {s t : State} (h : step s = .next t) :
    s.faultRec = none ∧
      ((s.pending = [] ∧ t = s) ∨
       ∃ c rest a b, s.pending = c :: rest ∧ s.operand c.a = some a ∧ s.operand c.b = some b ∧
         exec (decodeOp c.op) (s.present c.op a b rest) = .next t) := by
  unfold step at h
  cases hf : s.faultRec with
  | some r => rw [issueNext_aborted hf] at h; cases h
  | none =>
    refine ⟨rfl, ?_⟩
    cases hp : s.pending with
    | nil => rw [issueNext_idle hf hp] at h; cases h; exact .inl ⟨rfl, rfl⟩
    | cons c rest =>
      cases ha : s.operand c.a with
      | none => simp [State.issueNext, hf, hp, ha] at h
      | some a =>
        cases hb : s.operand c.b with
        | none => simp [State.issueNext, hf, hp, ha, hb] at h
        | some b =>
          rw [issueNext_operation hf hp ha hb] at h
          exact .inr ⟨c, rest, a, b, rfl, ha, hb, h⟩

end Machine

end Sys2Proof
end

