-- ==== Sys2Proof/Laws/PerInstr.lean ====
section
/-! SUPPORT. One fact about each operation as syntax: its code of R66, which reads back as it. -/

/-- The operation's op code is a 3-bit word that the decoder reads as that operation and as no other
(R65, R66, R67). -/
def Sys2Proof.Laws.Encoding.Statement (i : Sys2Proof.Instr) : Prop :=
  (Sys2Proof.encode i).toNat < 8 ∧
  Sys2Proof.decodeTableWord 8 (Sys2Proof.encode i).toNat = some i ∧
  ∀ j, Sys2Proof.encode j = Sys2Proof.encode i → j = i

namespace Sys2Proof.Laws.Encoding

theorem isImm1 : Statement .isImm1 := ⟨by decide, rfl, by rintro ⟨⟩ <;> decide⟩
theorem getPrefix : Statement .getPrefix := ⟨by decide, rfl, by rintro ⟨⟩ <;> decide⟩
theorem getPrefixAndTag : Statement .getPrefixAndTag := ⟨by decide, rfl, by rintro ⟨⟩ <;> decide⟩
theorem getTag : Statement .getTag := ⟨by decide, rfl, by rintro ⟨⟩ <;> decide⟩
theorem getValueUnsigned : Statement .getValueUnsigned := ⟨by decide, rfl, by rintro ⟨⟩ <;> decide⟩
theorem getValueSigned : Statement .getValueSigned := ⟨by decide, rfl, by rintro ⟨⟩ <;> decide⟩
theorem combineUnsigned : Statement .combineUnsigned := ⟨by decide, rfl, by rintro ⟨⟩ <;> decide⟩
theorem combineSigned : Statement .combineSigned := ⟨by decide, rfl, by rintro ⟨⟩ <;> decide⟩

end Sys2Proof.Laws.Encoding
end

