-- ==== Sys2Proof/Tests/Slice0.lean ====
section
/-! SUPPORT. The model's own tests. Expected values are those of spec/95_test_vectors.md, §2 and §3, and of
the encoding tables of spec/30_encoding.md; the last part shows that each statement's hypotheses
are met together somewhere. -/

namespace Sys2Proof.Tests

open Sys2Proof.Machine

/-- A codec of configuration `c` with numbers on its operand ports. -/
def codec (c : Config) (a b : Nat) : State where
  cfg := c
  op := 0
  a := BitVec.ofNat _ a
  b := BitVec.ofNat _ b
  y := 0
  fatal := 0
  fcode := 0
  faultRec := none
  pending := []
  results := []

/-- The configuration of the vectors at `W = 32`. -/
def c32 : Config := ⟨.w32, 0b01#2, -2 ^ 27, 2 ^ 27 - 1⟩

/-- The vectors' narrow bounds. -/
def narrow : Config := ⟨.w64, 0b01#2, -8, 7⟩

/-- The vectors' other primary tag. -/
def tag3 : Config := ⟨.w64, 0b11#2, -2 ^ 59, 2 ^ 59 - 1⟩

/-- A configuration that breaks R8: `MAX_POS_SMALL = 2^(W-5)` (C2). -/
def broken : Config := ⟨.w64, 0b01#2, -2 ^ 59, 2 ^ 59⟩

/-- A codec with commands pending. -/
def withPending (s : State) (p : List Command) : State := { s with pending := p }

/-- A codec with results already there. -/
def withResults (s : State) (r : List Nat) : State :=
  { s with results := r.map (BitVec.ofNat s.cfg.W) }

/-- A codec whose run has aborted. -/
def aborted : State :=
  { codec .vectors 2 0 with faultRec := some ⟨.notImmediate1, 0b100#3, 2#64, 0#64⟩ }

/-- `y` of a next state that is not fatal. -/
def result : Host.Outcome State Fault Refusal → Option Nat
  | .next t => if t.fatal = 0#1 then some t.y.toNat else none
  | _ => none

/-- `fcode` of a next state that is fatal, with the op code and operands recorded. -/
def fatality : Host.Outcome State Fault Refusal → Option (BitVec 3 × BitVec 3 × Nat × Nat)
  | .next t =>
    match t.faultRec with
    | some r => if t.fatal = 1#1 then some (t.fcode, r.op, r.a.toNat, r.b.toNat) else none
    | none => none
  | _ => none

/-- The refusal, if the outcome is one. -/
def refusal : Host.Outcome State Fault Refusal → Option Refusal
  | .refused r => some r
  | _ => none

/-! ### Decoding: the codes of R66, and a command word of four bits -/

theorem test_decode_isImm1 : decodeTableWord 8 0b000 = some .isImm1 := by decide
theorem test_decode_getPrefix : decodeTableWord 8 0b001 = some .getPrefix := by decide
theorem test_decode_getPrefixAndTag : decodeTableWord 8 0b010 = some .getPrefixAndTag := by decide
theorem test_decode_getTag : decodeTableWord 8 0b011 = some .getTag := by decide
theorem test_decode_getValueUnsigned : decodeTableWord 8 0b100 = some .getValueUnsigned := by decide
theorem test_decode_getValueSigned : decodeTableWord 8 0b101 = some .getValueSigned := by decide
theorem test_decode_combineUnsigned : decodeTableWord 8 0b110 = some .combineUnsigned := by decide
theorem test_decode_combineSigned : decodeTableWord 8 0b111 = some .combineSigned := by decide
theorem test_decode_refuses_wide : decodeTableWord 8 0b1000 = none := by decide

/-! ### Well-formedness: an ill-formed term for each check -/

theorem test_legal_vectors : Config.vectors.legal = true ∧ c32.legal = true := by decide
theorem test_illegal_below : (⟨.w64, 1, -2 ^ 59 - 1, 0⟩ : Config).legal = false := by decide
theorem test_illegal_order : (⟨.w64, 1, 1, 0⟩ : Config).legal = false := by decide
theorem test_illegal_above : broken.legal = false := by decide
theorem test_numeral_too_large : (Operand.num (2 ^ 32)).wf 32 0 = false := by decide
theorem test_numeral_too_small : (Operand.num (-2 ^ 31 - 1)).wf 32 0 = false := by decide
theorem test_result_zero : (Operand.result 0).wf 32 3 = false := by decide
theorem test_result_not_earlier : (Operand.result 4).wf 32 3 = false := by decide
theorem test_line_lacks_prefix :
    (⟨.combineSigned, .num (-1), none⟩ : ScriptLine).wf 64 0 = false := by decide
theorem test_line_spare_operand :
    (⟨.getTag, .num 1, some (.num 1)⟩ : ScriptLine).wf 64 0 = false := by decide
theorem test_line_bad_prefix :
    (⟨.combineSigned, .num 1, some (.result 1)⟩ : ScriptLine).wf 64 0 = false := by decide

/-! ### The operations: §2.1, §2.2, §2.3 -/

theorem test_isImm1_small : result (exec .isImm1 (codec .vectors 0xFFFFFFFFFFFFFFFD 0)) = some 1 := by
  decide
theorem test_isImm1_tag3 : result (exec .isImm1 (codec tag3 0xF 0)) = some 1 := by decide
theorem test_getPrefix : result (exec .getPrefix (codec .vectors 0xABCD 0)) = some 1 := by decide
theorem test_getPrefix_ones :
    result (exec .getPrefix (codec .vectors 0xFFFFFFFFFFFFFFFF 0)) = some 3 := by decide
theorem test_getPrefixAndTag : result (exec .getPrefixAndTag (codec .vectors 0xABCD 0)) = some 0xD := by
  decide
theorem test_getPrefixAndTag_ones :
    result (exec .getPrefixAndTag (codec .vectors 0xFFFFFFFFFFFFFFFF 0)) = some 0xF := by decide
theorem test_getTag_imm2 : result (exec .getTag (codec .vectors 9 0)) = some 2 := by decide
theorem test_getTag_foreign : result (exec .getTag (codec c32 0x1E 0)) = some 3 := by decide
theorem test_getValueUnsigned_ones :
    result (exec .getValueUnsigned (codec .vectors 0xFFFFFFFFFFFFFFFD 0)) =
      some 0x0FFFFFFFFFFFFFFF := by decide
theorem test_getValueUnsigned_foreign :
    fatality (exec .getValueUnsigned (codec c32 0x1E 0)) = some (1, 0b100, 0x1E, 0) := by decide
theorem test_getValueSigned_least :
    result (exec .getValueSigned (codec .vectors 0x800000000000000D 0)) =
      some 0xF800000000000000 := by decide
theorem test_getValueSigned_least32 :
    result (exec .getValueSigned (codec c32 0x8000000D 0)) = some 0xF8000000 := by decide
theorem test_combineUnsigned_largest :
    result (exec .combineUnsigned (codec .vectors 0x0FFFFFFFFFFFFFFF 5)) =
      some 0xFFFFFFFFFFFFFFF5 := by decide
theorem test_combineUnsigned_both_checks :
    fatality (exec .combineUnsigned (codec .vectors 0x1000000000000000 0x10)) =
      some (3, 0b110, 0x1000000000000000, 0x10) := by decide
theorem test_combineSigned_narrow :
    result (exec .combineSigned (codec narrow 0xFFFFFFFFFFFFFFF8 0xD)) =
      some 0xFFFFFFFFFFFFFF8D := by decide
theorem test_combineSigned_above :
    fatality (exec .combineSigned (codec .vectors 0x0800000000000000 0xD)) =
      some (5, 0b111, 0x0800000000000000, 0xD) := by decide

/-! ### Prefix constants (§2.4), and steps -/

theorem test_prefix_constants :
    (codec tag3 0 0).pfx .pid = 0x3 ∧ (codec tag3 0 0).pfx .port = 0x7 ∧
    (codec tag3 0 0).pfx .imm2 = 0xB ∧ (codec c32 0 0).pfx .small = 0xD := by decide

/-- P1's first line, from reset. -/
theorem test_step_p1 :
    result (step (withPending State.reset
      [encodeLine ⟨.combineSigned, .num (-1), some (.const (.prefixOf .small))⟩])) =
      some 0xFFFFFFFFFFFFFFFD := by decide

/-- P1's fourth line, with the results of the three before it. -/
theorem test_step_reads_result :
    result (step (withPending (withResults State.reset [0xFFFFFFFFFFFFFFFD, 1, 3])
      [encodeLine ⟨.getValueSigned, .result 1, none⟩])) = some 0xFFFFFFFFFFFFFFFF := by decide

theorem test_step_runs_fetch_word :
    result (step (State.reset.withFetchWord 8 0b110)) = some 0 := by decide

theorem test_illegal_configuration :
    refusal (exec .isImm1 (codec broken 0xD 0)) = some .illegalConfiguration := by decide

/-! ### Witnesses: the hypotheses of each statement, met together

The name is the statement's; a statement with clauses has its boundary values here. -/

theorem witness_CommandWordsAboveThreeBitsRefused : 8 ≤ 8 ∧ 8 < 2 ^ 4 := by decide

theorem witness_ScriptLineRoundTrip :
    (⟨.combineSigned, .num (-1), some (.result 3)⟩ : ScriptLine).wf 64 3 = true ∧
    (⟨.getTag, .num (2 ^ 64 - 1), none⟩ : ScriptLine).wf 64 0 = true ∧
    Instr.getTag.readsB = false := by decide

theorem witness_SignedAndUnsignedReadingsAreInverse :
    0 < 32 ∧ (-2 : Int) ^ 31 ≤ -2147483648 ∧ (-2147483648 : Int) < 2 ^ 31 := by decide

theorem witness_SliceIsShiftAndMask : 4 ≤ 31 ∧ 31 < 32 := by decide

theorem witness_ExtensionsAndArithmeticShiftAgree : 4 < 32 ∧ 0 < 28 := by decide

theorem witness_ValidityAndPrefixOfWord : isImmediate1 .vectors 0xD = true := by decide

/-- For every statement whose one hypothesis is a legal configuration. -/
theorem witness_legal : (codec c32 0xD 0).cfg.legal = true ∧ State.reset.cfg.legal = true := by
  decide

/-- Both clauses of GetValueUnsignedResult and GetValueSignedResult, and the hypotheses of
SignFillByMaskGivesTheSameValue and PayloadMuxDiffersOnlyInTopFourBits. -/
theorem witness_extraction :
    let s := codec .vectors 0x800000000000000D 0
    let t := codec .vectors 0x800000000000000E 0
    s.cfg.legal = true ∧ s.a.toNat % 4 = s.cfg.primaryImmediate.toNat ∧
    s.a.getLsbD (s.cfg.W - 1) = true ∧ t.cfg.legal = true ∧
    t.a.toNat % 4 ≠ t.cfg.primaryImmediate.toNat := by decide

theorem witness_mux_equal_results :
    let s := codec .vectors 0x7FFFFFFFFFFFFFFD 0
    s.cfg.legal = true ∧ s.a.toNat % 4 = s.cfg.primaryImmediate.toNat ∧
    s.a.getLsbD (s.cfg.W - 1) = false := by decide

/-- The clauses of CombineUnsignedResult at their boundaries; the first also meets
UnsignedCompositionLosesNoBit. -/
theorem witness_combineUnsigned :
    let s := codec c32 0x0FFFFFFF 15
    let t := codec c32 0x0FFFFFFF 16
    let u := codec c32 0x10000000 15
    s.cfg.legal = true ∧ s.b.toNat < 2 ^ 4 ∧ s.a.toNat < 2 ^ (s.cfg.W - 4) ∧
    t.cfg.legal = true ∧ 2 ^ 4 ≤ t.b.toNat ∧
    u.cfg.legal = true ∧ u.b.toNat < 2 ^ 4 ∧ 2 ^ (u.cfg.W - 4) ≤ u.a.toNat := by decide

/-- The clauses of CombineSignedResult at their boundaries; the first also meets
SignedCompositionLosesNoBit. -/
theorem witness_combineSigned :
    let s := codec narrow 7 15
    let t := codec narrow 7 16
    let u := codec narrow 8 15
    let v := codec narrow 0xFFFFFFFFFFFFFFF7 15
    s.cfg.legal = true ∧ s.b.toNat < 2 ^ 4 ∧ s.cfg.minNegSmall ≤ s.a.toInt ∧
    s.a.toInt ≤ s.cfg.maxPosSmall ∧ 2 ^ 4 ≤ t.b.toNat ∧
    u.b.toNat < 2 ^ 4 ∧ u.cfg.maxPosSmall < u.a.toInt ∧
    v.b.toNat < 2 ^ 4 ∧ v.a.toInt < v.cfg.minNegSmall := by decide

theorem witness_UnsignedRoundTrip :
    let s := codec tag3 0 0
    s.cfg.legal = true ∧ (0x0FFFFFFFFFFFFFFF#64).toNat < 2 ^ (s.cfg.W - 4) ∧
    (0xB#64).toNat = s.cfg.primaryImmediate.toNat ||| (2#2).toNat <<< 2 := by decide

theorem witness_SignedRoundTrip :
    let s := codec narrow 0 0
    s.cfg.legal = true ∧ s.cfg.minNegSmall ≤ (0xFFFFFFFFFFFFFFF8#64).toInt ∧
    (0xFFFFFFFFFFFFFFF8#64).toInt ≤ s.cfg.maxPosSmall ∧
    (0xD#64).toNat = (s.pfx .small).toNat := by decide

/-- The last clause of PrefixOutputsAreTheConstants. -/
theorem witness_PrefixOutputsAreTheConstants :
    ∃ t, exec .getTag (codec c32 9 0) = .next t := ⟨_, rfl⟩

theorem witness_PrefixConstantsMakeValidWords :
    let s := codec c32 5 9
    s.cfg.legal = true ∧ s.b.toNat = (s.pfx .imm2).toNat ∧ s.a.toNat < 2 ^ (s.cfg.W - 4) ∧
    s.cfg.minNegSmall ≤ s.a.toInt ∧ s.a.toInt ≤ s.cfg.maxPosSmall := by decide

theorem witness_FatalOutcomeRecordsTheOperation :
    let s := codec narrow 8 0xD
    s.cfg.legal = true ∧
    tableFault s.cfg .combineSigned s.a s.b = some .smallOutOfRange := by decide

theorem witness_PrefixFaultHasPriority :
    let s := codec narrow 0x1000000000000000 0x10
    s.cfg.legal = true ∧ 2 ^ 4 ≤ s.b.toNat ∧ 2 ^ (s.cfg.W - 4) ≤ s.a.toNat ∧
    s.cfg.maxPosSmall < s.a.toInt := by decide

theorem witness_CallersContractPreventsFaults :
    let s := codec .vectors 0x0800000000000000 15
    let t := codec narrow 7 15
    s.cfg.legal = true ∧ callerContract s.cfg .combineUnsigned s.a s.b ∧
    t.cfg.legal = true ∧ callerContract t.cfg .combineSigned t.a t.b := by
  simp only [callerContract]; decide

theorem witness_IllegalConfigurationRefused :
    let c := (codec broken 0 0).cfg
    ¬(-2 ^ (c.W - 5) ≤ c.minNegSmall ∧ c.minNegSmall ≤ c.maxPosSmall ∧
      c.maxPosSmall ≤ 2 ^ (c.W - 5) - 1) := by decide

theorem witness_UnreadPortHasNoEffect :
    (codec c32 0xD 0).cfg.legal = true ∧ Instr.getValueSigned.readsB = false := by decide

/-- ConfigurationNeverChanges and EarlierResultsAreKept: a step that answers a next state. -/
theorem witness_step_next : ∃ t, step (State.reset.withFetchWord 8 0b011) = .next t := ⟨_, rfl⟩

theorem witness_StepRunsTheDecodedOperation :
    let s := withPending (withResults State.reset [0xD]) [⟨0b110#3, .result 1, .num (-1)⟩]
    s.faultRec = none ∧ s.pending = [⟨0b110#3, .result 1, .num (-1)⟩] ∧
    s.operand (.result 1) = some 0xD#64 ∧
    s.operand (.num (-1)) = some 0xFFFFFFFFFFFFFFFF#64 := ⟨rfl, rfl, rfl, rfl⟩

theorem witness_IdleStepChangesNothing :
    State.reset.faultRec = none ∧ State.reset.pending = [] := by decide

/-- FatalOutcomeEndsTheRun, AbortedRunFaultsAtEveryStep, and the fault clause of
StepStopsOnlyForTheseReasons. -/
theorem witness_aborted_run :
    aborted.faultRec = some ⟨.notImmediate1, 0b100#3, 2#64, 0#64⟩ ∧
    step aborted = .fault (.runAborted .notImmediate1) := ⟨rfl, rfl⟩

/-- The two refusal clauses of StepStopsOnlyForTheseReasons. -/
theorem witness_step_refuses :
    step (withPending (codec broken 0 0) [⟨0b000#3, .num 0, .num 0⟩]) =
      .refused .illegalConfiguration ∧
    step (withPending State.reset [⟨0b000#3, .result 1, .num 0⟩]) =
      .refused .operandNotDefined := ⟨rfl, rfl⟩

/-- Each clause of OperandFormsHaveTheirValues, numerals at the ends of their ranges. -/
theorem witness_OperandFormsHaveTheirValues :
    let s := withResults (codec c32 0 0) [7]
    ((0 : Int) ≤ 2 ^ 32 - 1 ∧ (2 ^ 32 - 1 : Int) < 2 ^ s.cfg.W) ∧
    ((-2 ^ 31 : Int) < 0 ∧ (-2 ^ (s.cfg.W - 1) : Int) ≤ -2 ^ 31) ∧
    ((-2 ^ 31 - 1 : Int) < -2 ^ (s.cfg.W - 1) ∧ (2 ^ s.cfg.W : Int) ≤ 2 ^ 32) ∧
    s.results[0]? = some 7#32 ∧ s.results.length ≤ 1 ∧ s.cfg.legal = true := by decide

theorem witness_WellFormedLinesCanBeIssued :
    let l : ScriptLine := ⟨.combineUnsigned, .result 1, some (.const (.prefixOf .port))⟩
    let s := withPending (withResults State.reset [3]) [encodeLine l]
    s.cfg.legal = true ∧ l.wf s.cfg.W s.results.length = true ∧ s.faultRec = none ∧
    s.pending = [encodeLine l] := by decide

theorem witness_PlacedCommandWordRunsNext :
    State.reset.faultRec = none ∧ decodeTableWord 8 0b101 = some .getValueSigned := by decide

/-- EveryStepKeepsTheInvariant, at a state whose next step is fatal. -/
theorem witness_EveryStepKeepsTheInvariant :
    (State.reset.withFetchWord 8 0b100).Inv ∧
    ∃ t, step (State.reset.withFetchWord 8 0b100) = .next t ∧ t.fatal = 1#1 :=
  ⟨⟨rfl, ⟨rfl, rfl, rfl, rfl⟩, fun _ h => absurd rfl h⟩, _, rfl, rfl⟩

end Sys2Proof.Tests
end

section
/-! PROOFS. The value primitives of spec/00_scope.md R11 to R14, for every width: the readings of a
Word, the slice, and the extensions. -/

namespace Sys2Proof.Machine

/-! ### The two readings of a pattern (R12) -/

/-- R12: a signed reading lies in the SignedWord range. -/
theorem toSigned_range {W : Nat} (u : Word W) :
    -2 ^ (W - 1) ≤ toSigned u ∧ toSigned u < 2 ^ (W - 1) := by
  rw [toSigned_eq_toInt]
  exact ⟨BitVec.le_toInt u, BitVec.toInt_lt⟩

theorem toUnsigned_toNat (W : Nat) (z : Int) : ((toUnsigned W z).toNat : Int) = z % 2 ^ W := by
  have hmod : 0 ≤ z % (2 : Int) ^ W := Int.emod_nonneg z (by positivity)
  rw [toUnsigned, BitVec.toNat_ofInt]
  push_cast
  exact Int.toNat_of_nonneg hmod

/-- R12: in the SignedWord range, the signed reading undoes the unsigned one. -/
theorem toSigned_toUnsigned {W : Nat} (hW : 0 < W) {z : Int} (hlo : -2 ^ (W - 1) ≤ z)
    (hhi : z < 2 ^ (W - 1)) : toSigned (toUnsigned W z) = z := by
  rw [toSigned_eq_toInt, toUnsigned, BitVec.toInt_ofInt_eq_self hW hlo hhi]

/-- Settles O6: a Word's signed reading is in range by the library's bounds on `toInt`, and each
reading undoes the other. -/
theorem signedAndUnsignedReadingsAreInverse :
    Obligations.SignedAndUnsignedReadingsAreInverse := by
  unfold Obligations.SignedAndUnsignedReadingsAreInverse
  intro W hW
  constructor
  · intro u
    obtain ⟨hlo, hhi⟩ := toSigned_range u
    exact ⟨u.isLt, rfl, hlo, hhi, toUnsigned_toSigned u⟩
  · intro z hlo hhi
    exact ⟨toUnsigned_toNat W z, toSigned_toUnsigned hW hlo hhi⟩

/-! ### The slice (R11) -/

/-- Settles O7: the mask of `n` ones keeps the remainder by `2^n`. -/
theorem sliceIsShiftAndMask : Obligations.SliceIsShiftAndMask := by
  unfold Obligations.SliceIsShiftAndMask
  intro W hi lo v _ _
  rw [slice_toNat, Nat.and_two_pow_sub_one_eq_mod]

/-! ### The extensions and the arithmetic shift (R13, R14) -/

/-- R14: sign extension takes `2^n` off exactly when the top bit is set. -/
theorem sext_eq_ite_topBit_clear {n : Nat} (v : BitVec n) :
    sext v = if v.getLsbD (n - 1) = false then (v.toNat : Int) else v.toNat - 2 ^ n := by
  cases h : v.getLsbD (n - 1) <;> simp [sext, h]

/-- A slice up to the top bit loses nothing above: it is the quotient alone (R11). -/
theorem slice_to_top_toNat {W lo : Nat} (h : lo < W) (u : Word W) :
    (slice u (W - 1) lo).toNat = u.toNat / 2 ^ lo := by
  have hW : W = lo + (W - 1 - lo + 1) := by omega
  have hlt : u.toNat / 2 ^ lo < 2 ^ (W - 1 - lo + 1) := by
    rw [Nat.div_lt_iff_lt_mul (Nat.two_pow_pos lo), Nat.mul_comm, ← Nat.pow_add, ← hW]
    exact u.isLt
  rw [slice_toNat, Nat.mod_eq_of_lt hlt]

/-- A slice up to the top bit has the Word's sign bit (R59). -/
theorem slice_to_top_signBit {W lo : Nat} (h : lo < W) (u : Word W) :
    (slice u (W - 1) lo).getLsbD (W - 1 - lo) = u.getLsbD (W - 1) := by
  rw [slice, BitVec.getLsbD_extractLsb]
  simp [show lo + (W - 1 - lo) = W - 1 by omega]

/-- The arithmetic shift by `lo` is the sign extension of the bits from `lo` up, because `2^lo`
divides the `2^W` that a set sign bit takes off (R14). -/
theorem shrS_toSigned_eq_sext_slice {W lo : Nat} (h : lo < W) (u : Word W) :
    shrS (toSigned u) lo = sext (slice u (W - 1) lo) := by
  have hpow : (2 : Int) ^ W = 2 ^ (W - 1 - lo + 1) * 2 ^ lo := by
    rw [← pow_add]; congr 1; omega
  rw [shrS, toSigned_eq_toInt, ← sext_eq_toInt, sext, sext, Nat.add_sub_cancel,
    slice_to_top_signBit h, slice_to_top_toNat h]
  split
  · rw [hpow, Int.sub_mul_ediv_right _ _ (by positivity)]; push_cast; rfl
  · push_cast; rfl

/-- Settles O8: the third clause is the arithmetic shift at the payload's position. -/
theorem extensionsAndArithmeticShiftAgree : Obligations.ExtensionsAndArithmeticShiftAgree := by
  unfold Obligations.ExtensionsAndArithmeticShiftAgree
  refine ⟨?_, ?_, ?_⟩
  · intro W n v hn
    exact zext_toNat v (Nat.le_of_lt hn)
  · intro n v _
    exact sext_eq_ite_topBit_clear v
  · intro c u
    exact shrS_toSigned_eq_sext_slice c.four_lt_W u

end Sys2Proof.Machine
end

section
/-! PROOFS. Every operation ends as the fault table and the result table of Safety.lean say (R140 and
the rules of the operations); from that, what port `b` and a step can change. -/

namespace Sys2Proof.Machine

/-! ### The operations' outcomes are the tabulated ones -/

/-- An operation's outcome is what the two tables give for its operands. -/
def OpOutcome.AsTabulated (c : Config) (i : Instr) (a b : Word c.W) : OpOutcome c.W → Prop
  | .ok y => tableFault c i a b = none ∧ y.toNat = tableResult c i a b
  | .fatal code => tableFault c i a b = some code

theorem isImm1_value_toNat (c : Config) (w : Word c.W) :
    (if isImmediate1 c w then 1 else 0 : Word c.W).toNat =
      if w.toNat % 4 = c.primaryImmediate.toNat then 1 else 0 := by
  simp only [isImmediate1_iff]
  split
  · exact Nat.mod_eq_of_lt (c.lt_two_pow_W (by decide))
  · exact BitVec.toNat_zero

theorem zext_slice_toNat (c : Config) (w : Word c.W) {hi lo : Nat} (h : hi - lo < 4) :
    (zext c.W (slice w hi lo)).toNat = w.toNat / 2 ^ lo % 2 ^ (hi - lo + 1) := by
  have := c.four_lt_W
  rw [zext_toNat _ (by omega), slice_toNat]

theorem getPrefix_value_toNat (c : Config) (w : Word c.W) :
    (zext c.W (slice w 1 0)).toNat = w.toNat % 4 := by
  simpa using zext_slice_toNat c w (hi := 1) (lo := 0) (by decide)

theorem getPrefixAndTag_value_toNat (c : Config) (w : Word c.W) :
    (zext c.W (slice w 3 0)).toNat = w.toNat % 16 := by
  simpa using zext_slice_toNat c w (hi := 3) (lo := 0) (by decide)

theorem getTag_value_toNat (c : Config) (w : Word c.W) :
    (zext c.W (slice w 3 2)).toNat = w.toNat / 4 % 4 :=
  zext_slice_toNat c w (by decide)

/-- R105: the pattern of the arithmetic shift by the payload's position. -/
theorem getValueSigned_value_toNat (c : Config) (w : Word c.W) :
    (toUnsigned c.W (shrS (toSigned w) payloadShift)).toNat = (w.toInt / 16 % 2 ^ c.W).toNat := by
  rw [← toSigned_eq_toInt, ← Int.toNat_natCast (BitVec.toNat _), toUnsigned_toNat]
  rfl

/-- R122: a payload in range loses no bit to the shift. -/
theorem combineUnsigned_value_toNat (c : Config) (a b : Word c.W) (hb : b.toNat < 2 ^ 4)
    (ha : a.toNat < 2 ^ (c.W - 4)) :
    (b ||| shl a payloadShift).toNat = b.toNat + a.toNat * 16 := by
  have hpow := c.two_pow_W
  rw [prefix_or_shl_toNat c b a hb, Nat.mod_eq_of_lt (by omega)]

/-- R126, R127: the pattern of a signed reading is the word itself. -/
theorem combineSigned_value_toNat (c : Config) (a b : Word c.W) (hb : b.toNat < 2 ^ 4) :
    (b ||| shl (toUnsigned c.W (toSigned a)) payloadShift).toNat =
      b.toNat + a.toNat * 16 % 2 ^ c.W := by
  rw [toUnsigned_toSigned, prefix_or_shl_toNat c b a hb]

/-- R92: the tag has two bits. -/
theorem getTag_tableFault (c : Config) (a b : Word c.W) : tableFault c .getTag a b = none :=
  if_neg (by omega)

/-- R101, R105, with the check as the pseudocode has it. -/
theorem extraction_tableFault {c : Config} {i : Instr} (a b : Word c.W)
    (hi : i = .getValueUnsigned ∨ i = .getValueSigned) :
    tableFault c i a b = if isImmediate1 c a then none else some .notImmediate1 := by
  simp only [isImmediate1_iff]
  obtain rfl | rfl := hi <;> rfl

/-- R121, with the checks as the pseudocode has them. -/
theorem combineUnsigned_tableFault (c : Config) (a b : Word c.W) :
    tableFault c .combineUnsigned a b =
      if !prefixInRange b then some .prefixOutOfRange
      else if !unsignedInRange a then some .unsignedPayloadOutOfRange else none := by
  simp [tableFault, prefixInRange, prefixBits, unsignedInRange, smallBits]

/-- R126, with the checks as the pseudocode has them. -/
theorem combineSigned_tableFault (c : Config) (a b : Word c.W) :
    tableFault c .combineSigned a b =
      if !prefixInRange b then some .prefixOutOfRange
      else if !smallInRange c (toSigned a) then some .smallOutOfRange else none := by
  rw [toSigned_eq_toInt]
  simp [tableFault, prefixInRange, prefixBits, smallInRange]

/-- The outcome of one check with a result after it (R101, R105). -/
theorem OpOutcome.asTabulated_of_check {c : Config} {i : Instr} {a b v : Word c.W} {p : Bool}
    {code : FaultCode} (hf : tableFault c i a b = if p then none else some code)
    (hv : v.toNat = tableResult c i a b) :
    OpOutcome.AsTabulated c i a b (if p then .ok v else .fatal code) := by
  cases p with
  | false => exact hf
  | true => exact ⟨hf, hv⟩

/-- The outcome of two checks in their order with a result after them (R120, R145). -/
theorem OpOutcome.asTabulated_of_checks {c : Config} {i : Instr} {a b v : Word c.W} {p q : Bool}
    {code code' : FaultCode}
    (hf : tableFault c i a b = if !p then some code else if !q then some code' else none)
    (hv : p = true → q = true → v.toNat = tableResult c i a b) :
    OpOutcome.AsTabulated c i a b
      (if !p then .fatal code else if !q then .fatal code' else .ok v) := by
  cases p with
  | false => exact hf
  | true =>
    cases q with
    | false => exact hf
    | true => exact ⟨hf, hv rfl rfl⟩

/-- Every operation ends through `conclude` with the tabulated outcome. -/
theorem exec_asTabulated (i : Instr) (s : State) :
    ∃ o, exec i s = conclude i s o ∧ o.AsTabulated s.cfg i s.a s.b := by
  cases i with
  | isImm1 => exact ⟨.ok _, rfl, rfl, isImm1_value_toNat s.cfg s.a⟩
  | getPrefix => exact ⟨.ok _, rfl, rfl, getPrefix_value_toNat s.cfg s.a⟩
  | getPrefixAndTag => exact ⟨.ok _, rfl, rfl, getPrefixAndTag_value_toNat s.cfg s.a⟩
  | getTag =>
    refine ⟨_, rfl, ?_⟩
    rw [if_pos (tagInRange_eq_true _)]
    exact ⟨getTag_tableFault .., getTag_value_toNat s.cfg s.a⟩
  | getValueUnsigned =>
    exact ⟨_, rfl, OpOutcome.asTabulated_of_check (extraction_tableFault _ _ (.inl rfl))
      (shrU_toNat s.a 4)⟩
  | getValueSigned =>
    exact ⟨_, rfl, OpOutcome.asTabulated_of_check (extraction_tableFault _ _ (.inr rfl))
      (getValueSigned_value_toNat s.cfg s.a)⟩
  | combineUnsigned =>
    refine ⟨_, rfl, OpOutcome.asTabulated_of_checks (combineUnsigned_tableFault ..) fun hb ha => ?_⟩
    exact combineUnsigned_value_toNat s.cfg s.a s.b
      ((prefixInRange_iff s.b).mp hb) ((unsignedInRange_iff s.a).mp ha)
  | combineSigned =>
    refine ⟨_, rfl, OpOutcome.asTabulated_of_checks (combineSigned_tableFault ..) fun hb _ => ?_⟩
    exact combineSigned_value_toNat s.cfg s.a s.b ((prefixInRange_iff s.b).mp hb)

/-- An operation without a tabulated fault delivers the tabulated result (R141). -/
theorem exec_eq_deliver {i : Instr} {s : State} (hl : s.cfg.legal = true)
    (hf : tableFault s.cfg i s.a s.b = none) :
    ∃ v, v.toNat = tableResult s.cfg i s.a s.b ∧ exec i s = .next (s.deliver v) := by
  obtain ⟨o, ho, htab⟩ := exec_asTabulated i s
  cases o with
  | ok v => exact ⟨v, htab.2, ho.trans (conclude_ok i s v hl)⟩
  | fatal code => exact absurd (hf.symm.trans htab) (by simp)

/-- An operation with a tabulated fault takes the fatal outcome of that code (R142). -/
theorem exec_eq_raiseFatal {i : Instr} {s : State} {code : FaultCode} (hl : s.cfg.legal = true)
    (hf : tableFault s.cfg i s.a s.b = some code) :
    exec i s = .next (s.raiseFatal i code) := by
  obtain ⟨o, ho, htab⟩ := exec_asTabulated i s
  cases o with
  | ok v => exact absurd (hf.symm.trans htab.1) (by simp)
  | fatal code' =>
    obtain rfl : code' = code := Option.some.inj (htab.symm.trans hf)
    exact ho.trans (conclude_fatal i s code' hl)

/-! ### Port `b` (R26) -/

theorem tableFault_of_not_readsB {i : Instr} (h : i.readsB = false) (c : Config)
    (a b b' : Word c.W) : tableFault c i a b = tableFault c i a b' := by
  cases i with
  | combineUnsigned | combineSigned => cases h
  | _ => rfl

theorem tableResult_of_not_readsB {i : Instr} (h : i.readsB = false) (c : Config)
    (a b b' : Word c.W) : tableResult c i a b = tableResult c i a b' := by
  cases i with
  | combineUnsigned | combineSigned => cases h
  | _ => rfl

/-- Settles O35: the tables of an operation that does not read `b` are the same for both values, so
both runs deliver the same number or both are fatal with the same code. -/
theorem unreadPortHasNoEffect : Obligations.UnreadPortHasNoEffect := by
  unfold Obligations.UnreadPortHasNoEffect
  intro i s b' hl hi
  have hfault := tableFault_of_not_readsB hi s.cfg s.a b' s.b
  have hresult := tableResult_of_not_readsB hi s.cfg s.a b' s.b
  cases hf : tableFault s.cfg i s.a s.b with
  | none =>
    obtain ⟨v, hv, he⟩ := exec_eq_deliver hl hf
    obtain ⟨v', hv', he'⟩ :=
      exec_eq_deliver (s := { s with b := b' }) hl (hfault.trans hf)
    exact ⟨_, _, he, he', rfl, rfl, fun _ => hv'.trans (hresult.trans hv.symm)⟩
  | some code =>
    have he := exec_eq_raiseFatal hl hf
    have he' := exec_eq_raiseFatal (s := { s with b := b' }) hl (hfault.trans hf)
    exact ⟨_, _, he, he', rfl, rfl, fun h => absurd h (by simp)⟩

/-! ### The step (R25, R27, R28) -/

/-- Settles O37: an idle step changes nothing, and no operation writes the constants. -/
theorem configurationNeverChanges : Obligations.ConfigurationNeverChanges := by
  unfold Obligations.ConfigurationNeverChanges
  intro s t h
  obtain ⟨_, ⟨_, rfl⟩ | ⟨c, rest, a, b, _, _, _, he⟩⟩ := step_next h
  · rfl
  · exact (exec_cfg he).trans (s.present_cfg c.op a b rest)

/-- Delivering the tabulated result of the operation on the ports establishes the invariant. -/
theorem State.inv_deliver {s : State} {v : Word s.cfg.W} (hl : s.cfg.legal = true)
    (hrec : s.faultRec = none) (hf : tableFault s.cfg (decodeOp s.op) s.a s.b = none)
    (hv : v.toNat = tableResult s.cfg (decodeOp s.op) s.a s.b) : (s.deliver v).Inv := by
  refine ⟨hl, ?_, fun _ _ => by simp⟩
  simp [State.portsAgree, hf, hrec, hv]

/-- Raising the tabulated fault of the operation on the ports establishes the invariant. -/
theorem State.inv_raiseFatal {s : State} {code : FaultCode} (hl : s.cfg.legal = true)
    (hf : tableFault s.cfg (decodeOp s.op) s.a s.b = some code) :
    (s.raiseFatal (decodeOp s.op) code).Inv := by
  refine ⟨hl, ?_, fun h => by simp at h⟩
  simp [State.portsAgree, hf]

/-- An operation issued without a fault record answers a state that meets the invariant, whatever
the output ports held before. -/
theorem inv_of_exec {s t : State} (hl : s.cfg.legal = true) (hrec : s.faultRec = none)
    (h : exec (decodeOp s.op) s = .next t) : t.Inv := by
  cases hf : tableFault s.cfg (decodeOp s.op) s.a s.b with
  | none =>
    obtain ⟨v, hv, he⟩ := exec_eq_deliver hl hf
    cases he.symm.trans h
    exact State.inv_deliver hl hrec hf hv
  | some code =>
    cases (exec_eq_raiseFatal hl hf).symm.trans h
    exact State.inv_raiseFatal hl hf

/-- Settles O49: a step is idle, or it issues an operation without a fault record, whose tabulated
outcome makes the ports, the record and the newest result agree again. -/
theorem everyStepKeepsTheInvariant : Obligations.EveryStepKeepsTheInvariant := by
  unfold Obligations.EveryStepKeepsTheInvariant
  intro s t hinv h
  obtain ⟨hrec, ⟨_, rfl⟩ | ⟨c, rest, a, b, _, _, _, he⟩⟩ := step_next h
  · exact hinv
  · obtain ⟨hlegal, _, _⟩ := hinv
    exact inv_of_exec (s := s.present c.op a b rest) hlegal hrec he

end Sys2Proof.Machine
end

section
/-! PROOFS. The outputs of an operation are determined by the operation, its operands and the
configuration (R25, R45). -/

namespace Sys2Proof.Machine

/-- Settles O36: the two states have one configuration and the same operands, so one row of the fault
table decides both runs; they deliver the same tabulated number, or raise the same code with the same
free value on `y`. -/
theorem outputsDependOnInputsAlone : Obligations.OutputsDependOnInputsAlone := by
  unfold Obligations.OutputsDependOnInputsAlone
  intro i s y' fatal' op' fcode' faultRec' pending' results' hl
  cases hf : tableFault s.cfg i s.a s.b with
  | none =>
    obtain ⟨v, hv, he⟩ := exec_eq_deliver hl hf
    obtain ⟨v', hv', he'⟩ := exec_eq_deliver (s := { s with
      op := op', y := y', fatal := fatal', fcode := fcode', faultRec := faultRec'
      pending := pending', results := results' }) hl hf
    exact ⟨_, _, he, he', hv'.trans hv.symm, rfl, rfl⟩
  | some code =>
    exact ⟨_, _, exec_eq_raiseFatal hl hf, exec_eq_raiseFatal hl hf, rfl, rfl, rfl⟩

end Sys2Proof.Machine
end

section
/-! PROOFS. The layout of a Word and the codes: the two payload readings (R59), the prefix (R57, R58),
the subtype codes (R56), and the operation codes (R66, R67). -/

namespace Sys2Proof.Machine

/-! ### The payload (R59) -/

/-- The zero extension of the bits from `lo` up is the logical shift by `lo` (R13, R14). -/
theorem zext_slice_eq_shrU {W lo : Nat} (h : lo < W) (u : Word W) :
    zext W (slice u (W - 1) lo) = shrU u lo := by
  apply BitVec.eq_of_toNat_eq
  rw [zext_toNat _ (by omega), slice_to_top_toNat h, shrU_toNat]

/-- A Word shifted right by the payload's position fits the payload's width. -/
theorem shrU_four_lt (c : Config) (u : Word c.W) : (shrU u 4).toNat < 2 ^ (c.W - 4) := by
  have hu := u.isLt
  rw [c.two_pow_W] at hu
  rw [shrU_toNat]
  omega

/-- The arithmetic shift by `lo` lies in the two's-complement range of the `W - lo` bits that are
left, as the sign extension of those bits does. -/
theorem shrS_toSigned_range {W lo : Nat} (h : lo < W) (u : Word W) :
    -2 ^ (W - 1 - lo) ≤ shrS (toSigned u) lo ∧ shrS (toSigned u) lo < 2 ^ (W - 1 - lo) := by
  rw [shrS_toSigned_eq_sext_slice h, sext_eq_toInt]
  exact ⟨BitVec.le_toInt _, BitVec.toInt_lt⟩

/-- The arithmetic shift keeps the sign. -/
theorem shrS_neg_iff (z : Int) (n : Nat) : shrS z n < 0 ↔ z < 0 := by
  rw [shrS, Int.ediv_lt_iff_lt_mul (by positivity), zero_mul]

/-- A signed reading is negative exactly when the top bit is set (R12). -/
theorem toSigned_neg_iff {W : Nat} (u : Word W) :
    toSigned u < 0 ↔ u.getLsbD (W - 1) = true := by
  rw [toSigned_eq_toInt, ← BitVec.msb_eq_getLsbD_last, BitVec.msb_eq_toInt, decide_eq_true_iff]

/-- Settles O9: both readings are shifts of the whole word, so the ranges and the sign are those of
the shifts. -/
theorem payloadReadingsAndRanges : Obligations.PayloadReadingsAndRanges := by
  unfold Obligations.PayloadReadingsAndRanges
  intro c w
  have h4 := c.four_lt_W
  obtain ⟨hlo, hhi⟩ := shrS_toSigned_range h4 w
  have hexp : c.W - 1 - 4 = c.W - 5 := by omega
  rw [hexp] at hlo hhi
  exact ⟨zext_slice_eq_shrU h4 w, shrU_four_lt c w,
    (shrS_toSigned_eq_sext_slice h4 w).symm, hlo, hhi,
    (shrS_neg_iff _ 4).trans (toSigned_neg_iff w)⟩

/-! ### The prefix (R57, R58) -/

/-- The low four bits are the primary tag, with the subtype tag above it (R58). -/
theorem prefix_slice_toNat {W : Nat} (w : Word W) :
    (slice w 3 0).toNat = (slice w 1 0).toNat ||| (slice w 3 2).toNat <<< 2 := by
  rw [tag_or_shift _ _ (slice w 1 0).isLt]
  simp only [slice_toNat]
  omega

/-- The primary tag of a valid word is PRIMARY_IMMEDIATE (R57). -/
theorem primaryTag_toNat_of_isImmediate1 {c : Config} {w : Word c.W}
    (h : isImmediate1 c w = true) : (slice w 1 0).toNat = c.primaryImmediate.toNat := by
  rw [← (isImmediate1_iff c w).mp h]
  simp

/-- Settles O10: the prefix splits into the two tags, and validity fixes the primary one. -/
theorem validityAndPrefixOfWord : Obligations.ValidityAndPrefixOfWord := by
  unfold Obligations.ValidityAndPrefixOfWord
  intro c w
  refine ⟨isImmediate1_iff c w, prefix_slice_toNat w, fun h => ⟨?_, (slice w 3 0).isLt⟩⟩
  rw [prefix_slice_toNat, primaryTag_toNat_of_isImmediate1 h]

end Sys2Proof.Machine

namespace Sys2Proof

/-! ### The operation codes (R66, R67) -/

/-- No 3-bit value is refused (R67). -/
@[simp] theorem decodeWord_toNat (op : BitVec 3) : decodeWord op.toNat = .ok (decodeOp op) := by
  rw [decodeWord, if_pos op.isLt, BitVec.ofNat_toNat, BitVec.setWidth_eq]

/-- A command word of three bits or more that holds an operation's code is read as that operation. -/
theorem decodeTableWord_encode {nbits : Nat} (h : 3 ≤ nbits) (i : Instr) :
    decodeTableWord nbits (encode i).toNat = some i := by
  have hlt : (encode i).toNat < 2 ^ nbits :=
    Nat.lt_of_lt_of_le (encode i).isLt (Nat.pow_le_pow_right (by decide) h)
  rw [decodeTableWord, Nat.mod_eq_of_lt hlt, decodeWord_toNat, decodeOp_encode]

/-- Settles O1: each word of the table is the code `encode` gives its operation. -/
theorem opcodeWordsDecodeAsTabulated : Obligations.OpcodeWordsDecodeAsTabulated := by
  unfold Obligations.OpcodeWordsDecodeAsTabulated
  have h (i : Instr) : decodeTableWord 8 (encode i).toNat = some i :=
    decodeTableWord_encode (by decide) i
  exact ⟨h .isImm1, h .getPrefix, h .getPrefixAndTag, h .getTag, h .getValueUnsigned,
    h .getValueSigned, h .combineUnsigned, h .combineSigned⟩

/-- Settles O2: `encode` and `decodeOp` are inverse both ways, so no code has a second operation. -/
theorem everyOpCodeIsExactlyOneOperation : Obligations.EveryOpCodeIsExactlyOneOperation := by
  unfold Obligations.EveryOpCodeIsExactlyOneOperation
  refine ⟨fun op => ⟨decodeWord_toNat op, encode_decodeOp op, ?_⟩, decodeOp_encode⟩
  rintro i rfl
  exact (decodeOp_encode i).symm

/-! ### The subtype codes (R56) -/

@[simp] theorem SubtypeTag.ofCode_code (t : SubtypeTag) : SubtypeTag.ofCode t.code = t := by
  cases t <;> rfl

@[simp] theorem SubtypeTag.code_ofCode (t : BitVec 2) : (SubtypeTag.ofCode t).code = t := by
  revert t; decide

/-- Settles O5: the codes are the table's, and `code` and `ofCode` are inverse both ways. -/
theorem subtypeCodesCoverTwoBits : Obligations.SubtypeCodesCoverTwoBits := by
  unfold Obligations.SubtypeCodesCoverTwoBits
  exact ⟨rfl, rfl, rfl, rfl, SubtypeTag.ofCode_code, SubtypeTag.code_ofCode⟩

end Sys2Proof
end

section
/-! PROOFS. Classification and tag extraction (spec/40_classify.md R80 to R92): what each operation
delivers, and what its result tells of the word. -/

namespace Sys2Proof

/-! ### Which prefix a word has (R57, R130) -/

/-- The subtype Pid alone adds nothing to the primary tag (R56). -/
theorem SubtypeTag.code_toNat_eq_zero_iff (t : SubtypeTag) : t.code.toNat = 0 ↔ t = .pid := by
  cases t <;> decide

namespace Machine

theorem State.pfx_toNat (s : State) (t : SubtypeTag) :
    (s.pfx t).toNat = s.cfg.primaryImmediate.toNat + 4 * t.code.toNat :=
  prefixConst_toNat s.cfg t

/-- A number of two bits equals a prefix constant only in Pid, where the constant is
PRIMARY_IMMEDIATE itself. -/
theorem State.mod_four_eq_pfx_iff (s : State) (t : SubtypeTag) (n : Nat) :
    n % 4 = (s.pfx t).toNat ↔ n % 4 = s.cfg.primaryImmediate.toNat ∧ t = .pid := by
  rw [s.pfx_toNat, ← t.code_toNat_eq_zero_iff]
  omega

/-- Four bits equal a prefix constant exactly when both tags in them are the constant's. -/
theorem State.mod_sixteen_eq_pfx_iff (s : State) (t : SubtypeTag) (n : Nat) :
    n % 16 = (s.pfx t).toNat ↔
      n % 4 = s.cfg.primaryImmediate.toNat ∧ n / 4 % 4 = t.code.toNat := by
  have hprimary := s.cfg.primaryImmediate_lt
  have htag : t.code.toNat < 4 := t.code.isLt
  rw [s.pfx_toNat]
  omega

/-- IS_IMM1's tabulated result is 1 exactly for valid words (R57, R81). -/
theorem tableResult_isImm1_eq_one_iff (c : Config) (a b : Word c.W) :
    tableResult c .isImm1 a b = 1 ↔ a.toNat % 4 = c.primaryImmediate.toNat := by
  simp [tableResult]

/-- An operation without a tabulated fault completes with the tabulated number on `y`: what a claim
about the result alone needs. -/
theorem exec_next_y_toNat {i : Instr} {s : State} (hl : s.cfg.legal = true)
    (hf : tableFault s.cfg i s.a s.b = none) :
    ∃ t, exec i s = .next t ∧ t.y.toNat = tableResult s.cfg i s.a s.b := by
  obtain ⟨v, hv, he⟩ := exec_eq_deliver hl hf
  exact ⟨s.deliver v, he, hv⟩

/-! ### What the operations promise of each other (R85, R88) -/

/-- Settles O19: GET_PREFIX delivers `a mod 4` and IS_IMM1 whether that is PRIMARY_IMMEDIATE; two bits
can only match the Pid constant. -/
theorem prefixComparisonDecidesValidity : Obligations.PrefixComparisonDecidesValidity := by
  unfold Obligations.PrefixComparisonDecidesValidity
  intro s hl
  obtain ⟨p, hp, hpy⟩ := exec_next_y_toNat (i := .getPrefix) hl rfl
  obtain ⟨q, hq, hqy⟩ := exec_next_y_toNat (i := .isImm1) hl rfl
  have hprefix : p.y.toNat = s.a.toNat % 4 := hpy
  have hone : q.y.toNat = 1 ↔ s.a.toNat % 4 = s.cfg.primaryImmediate.toNat := by
    rw [hqy, tableResult_isImm1_eq_one_iff]
  have hpfx (t : SubtypeTag) :
      p.y.toNat = (s.pfx t).toNat ↔ s.a.toNat % 4 = s.cfg.primaryImmediate.toNat ∧ t = .pid := by
    rw [hprefix, s.mod_four_eq_pfx_iff]
  refine ⟨p, q, hp, hq, ?_, fun t h => ((hpfx t).mp h).2, ?_⟩
  · rw [hprefix, hone]
  · rw [hpfx, hone, and_iff_left rfl]

/-- Settles O20: GET_PREFIX_AND_TAG delivers `a mod 16`, which is the two tags together. -/
theorem prefixAndTagIdentifiesSubtype : Obligations.PrefixAndTagIdentifiesSubtype := by
  unfold Obligations.PrefixAndTagIdentifiesSubtype
  intro s t hl
  obtain ⟨p, hp, hpy⟩ := exec_next_y_toNat (i := .getPrefixAndTag) hl rfl
  refine ⟨p, hp, ?_⟩
  rw [hpy]
  exact s.mod_sixteen_eq_pfx_iff t s.a.toNat

/-! ### The operations in full (R81, R84, R87, R90): code, tabulated result, and the frame that
`deliver` keeps -/

/-- Settles O11: IS_IMM1 has no fault, so it delivers its tabulated result. -/
theorem isImm1Result : Obligations.IsImm1Result := by
  unfold Obligations.IsImm1Result
  exact ⟨rfl, fun _ hl => exec_eq_deliver (i := .isImm1) hl rfl⟩

/-- Settles O12: GET_PREFIX has no fault, so it delivers its tabulated result. -/
theorem getPrefixResult : Obligations.GetPrefixResult := by
  unfold Obligations.GetPrefixResult
  exact ⟨rfl, fun _ hl => exec_eq_deliver (i := .getPrefix) hl rfl⟩

/-- Settles O13: GET_PREFIX_AND_TAG has no fault, so it delivers its tabulated result. -/
theorem getPrefixAndTagResult : Obligations.GetPrefixAndTagResult := by
  unfold Obligations.GetPrefixAndTagResult
  exact ⟨rfl, fun _ hl => exec_eq_deliver (i := .getPrefixAndTag) hl rfl⟩

/-- Settles O14: a 2-bit tag is at most 3, so the fault of the table cannot occur and the tag is
delivered. -/
theorem getTagResult : Obligations.GetTagResult := by
  unfold Obligations.GetTagResult
  refine ⟨rfl, fun s hl => ?_⟩
  obtain ⟨v, hv, he⟩ := exec_eq_deliver hl (getTag_tableFault s.cfg s.a s.b)
  have hle : s.a.toNat / 4 % 4 ≤ 3 := by omega
  exact ⟨v, hv, hv.trans_le hle, he⟩

/-- Settles O29: IS_IMM1 completes on every word, and the two cases are those of its tabulated
result. -/
theorem classificationIsMembership : Obligations.ClassificationIsMembership := by
  unfold Obligations.ClassificationIsMembership
  intro s hl
  obtain ⟨t, ht, hy⟩ := exec_next_y_toNat (i := .isImm1) hl rfl
  exact ⟨t, ht, fun hforeign => hy.trans (if_neg hforeign), fun hvalid => hy.trans (if_pos hvalid)⟩

end Machine

end Sys2Proof
end

section
/-! PROOFS. Payload extraction (spec/41_extract.md R101 to R107): each operation delivers a shift of
the word by the payload's position, the logical one or the arithmetic one, and is fatal on a word
that is not Immediate1. -/

namespace Sys2Proof.Machine

/-! ### The arithmetic shift of a pattern (R13, R14), bit by bit -/

theorem shrS_eq_shiftRight (z : Int) (n : Nat) : shrS z n = z >>> n := by
  rw [shrS, Int.shiftRight_eq_div_pow, Nat.cast_pow, Nat.cast_ofNat]

/-- The pattern of the shifted signed reading is the library's arithmetic shift. -/
theorem toUnsigned_shrS_toSigned {W : Nat} (u : Word W) (n : Nat) :
    toUnsigned W (shrS (toSigned u) n) = u.sshiftRight n := by
  rw [toSigned_eq_toInt, shrS_eq_shiftRight, toUnsigned, BitVec.sshiftRight_eq]

theorem sshiftRight_toInt_eq_shrS {W : Nat} (u : Word W) (n : Nat) :
    (u.sshiftRight n).toInt = shrS (toSigned u) n := by
  rw [toSigned_eq_toInt, shrS_eq_shiftRight, BitVec.toInt_sshiftRight]

@[simp] theorem shrU_getLsbD {W : Nat} (u : Word W) (n k : Nat) :
    (shrU u n).getLsbD k = u.getLsbD (k + n) := by
  rw [shrU, BitVec.getLsbD_ushiftRight, Nat.add_comm]

/-- Below its top `n` bits the arithmetic shift holds the word's bits. -/
theorem sshiftRight_getLsbD_low {W : Nat} (u : Word W) {n k : Nat} (h : k < W - n) :
    (u.sshiftRight n).getLsbD k = u.getLsbD (k + n) := by
  rw [BitVec.getLsbD_sshiftRight, if_pos (by omega), Nat.add_comm k n]
  simp [show k < W by omega]

/-- The top `n` bits of the arithmetic shift are copies of the word's sign bit. -/
theorem sshiftRight_getLsbD_high {W : Nat} (u : Word W) {n k : Nat} (h : W - n ≤ k)
    (hk : k < W) : (u.sshiftRight n).getLsbD k = u.getLsbD (W - 1) := by
  rw [BitVec.getLsbD_sshiftRight, if_neg (by omega), BitVec.msb_eq_getLsbD_last]
  simp [hk]

/-- The mask `0xF << (W-4)` of R106 has the top four bits set and no other. -/
theorem signFillMask_getLsbD {W k : Nat} (hk : k < W) :
    (BitVec.ofNat W 0xF <<< (W - 4)).getLsbD k = decide (W - 4 ≤ k) := by
  have hones : Nat.testBit 0xF (k - (W - 4)) = decide (k - (W - 4) < 4) :=
    Nat.testBit_two_pow_sub_one 4 _
  rw [BitVec.getLsbD_shiftLeft, BitVec.getLsbD_ofNat, hones]
  simp only [decide_eq_true hk, Bool.true_and, ← decide_not, ← Bool.decide_and, decide_eq_decide]
  omega

/-- With the sign bit clear, the two shifts are the same (R107). -/
theorem sshiftRight_eq_shrU_of_signBit_clear {W : Nat} {u : Word W}
    (h : u.getLsbD (W - 1) = false) (n : Nat) : u.sshiftRight n = shrU u n :=
  BitVec.sshiftRight_eq_of_msb_false ((BitVec.msb_eq_getLsbD_last u).trans h)

/-- With the sign bit set, the arithmetic shift is the logical one under the mask (R106). -/
theorem sshiftRight_eq_shrU_or_mask_of_signBit_set {W : Nat} {u : Word W}
    (h : u.getLsbD (W - 1) = true) :
    u.sshiftRight 4 = shrU u 4 ||| BitVec.ofNat W 0xF <<< (W - 4) := by
  apply BitVec.eq_of_getLsbD_eq
  intro k hk
  rw [BitVec.getLsbD_or, shrU_getLsbD, signFillMask_getLsbD hk]
  by_cases hlow : k < W - 4
  · rw [sshiftRight_getLsbD_low u hlow, decide_eq_false (by omega), Bool.or_false]
  · rw [sshiftRight_getLsbD_high u (by omega) hk, h, decide_eq_true (by omega), Bool.or_true]

/-- R106: bit `W-5` of the logically shifted word is the sign bit, so filling by it gives the
arithmetic shift. -/
theorem sshiftRight_eq_signFill (c : Config) (u : Word c.W) :
    u.sshiftRight 4 =
      if (shrU u 4).getLsbD (c.W - 5) then shrU u 4 ||| BitVec.ofNat c.W 0xF <<< (c.W - 4)
      else shrU u 4 := by
  have h4 := c.four_lt_W
  rw [shrU_getLsbD, show c.W - 5 + 4 = c.W - 1 by omega]
  split
  · next hset => exact sshiftRight_eq_shrU_or_mask_of_signBit_set hset
  · next hset =>
    exact sshiftRight_eq_shrU_of_signBit_clear (Bool.eq_false_of_not_eq_true hset) 4

/-! ### What the two operations deliver and raise (R101, R105) -/

/-- R101: the logical shift of a valid word. -/
theorem exec_getValueUnsigned_valid {s : State} (hl : s.cfg.legal = true)
    (hvalid : s.a.toNat % 4 = s.cfg.primaryImmediate.toNat) :
    exec .getValueUnsigned s = .next (s.deliver (shrU s.a 4)) := by
  obtain ⟨v, hv, he⟩ := exec_eq_deliver (i := .getValueUnsigned) hl (if_pos hvalid)
  obtain rfl : v = shrU s.a 4 := BitVec.eq_of_toNat_eq (hv.trans (shrU_toNat s.a 4).symm)
  exact he

/-- R105: the arithmetic shift of a valid word. -/
theorem exec_getValueSigned_valid {s : State} (hl : s.cfg.legal = true)
    (hvalid : s.a.toNat % 4 = s.cfg.primaryImmediate.toNat) :
    exec .getValueSigned s = .next (s.deliver (s.a.sshiftRight 4)) := by
  obtain ⟨v, hv, he⟩ := exec_eq_deliver (i := .getValueSigned) hl (if_pos hvalid)
  obtain rfl : v = s.a.sshiftRight 4 := by
    rw [← toUnsigned_shrS_toSigned]
    exact BitVec.eq_of_toNat_eq (hv.trans (getValueSigned_value_toNat s.cfg s.a).symm)
  exact he

/-- Settles O15: a valid word delivers its logical shift; any other raises the tabulated fault. -/
theorem getValueUnsignedResult : Obligations.GetValueUnsignedResult := by
  unfold Obligations.GetValueUnsignedResult
  refine ⟨rfl, fun s hl => ⟨fun hvalid => ?_, fun hforeign => ?_⟩⟩
  · exact ⟨shrU s.a 4, shrU_toNat s.a 4, shrU_four_lt s.cfg s.a,
      exec_getValueUnsigned_valid hl hvalid⟩
  · exact ⟨_, exec_eq_raiseFatal (i := .getValueUnsigned) hl (if_neg hforeign)⟩

/-- Settles O16: a valid word delivers its arithmetic shift, whose range is the payload's and not
the Small bounds'; any other raises the tabulated fault. -/
theorem getValueSignedResult : Obligations.GetValueSignedResult := by
  unfold Obligations.GetValueSignedResult
  refine ⟨rfl, fun s hl => ⟨fun hvalid => ?_, fun hforeign => ?_⟩⟩
  · have hval := sshiftRight_toInt_eq_shrS s.a 4
    obtain ⟨hlo, hhi⟩ := shrS_toSigned_range s.cfg.four_lt_W s.a
    have hexp : s.cfg.W - 1 - 4 = s.cfg.W - 5 := by omega
    rw [hexp, ← hval] at hlo hhi
    rw [toSigned_eq_toInt] at hval
    exact ⟨s.a.sshiftRight 4, hval, hlo, hhi, exec_getValueSigned_valid hl hvalid⟩
  · exact ⟨_, exec_eq_raiseFatal (i := .getValueSigned) hl (if_neg hforeign)⟩

/-! ### What the two operations promise of each other (R106, R107) -/

/-- Settles O21: the mask fills in the copies of the sign bit that the arithmetic shift has. -/
theorem signFillByMaskGivesTheSameValue : Obligations.SignFillByMaskGivesTheSameValue := by
  unfold Obligations.SignFillByMaskGivesTheSameValue
  intro s hl hvalid
  exact ⟨shrU s.a 4, s.a.sshiftRight 4, rfl, sshiftRight_eq_signFill s.cfg s.a,
    exec_getValueSigned_valid hl hvalid⟩

/-- Settles O22: bit by bit, the two shifts hold the payload in the low bits, and zeros or copies of
the sign bit above them; a clear sign bit makes these the same. -/
theorem payloadMuxDiffersOnlyInTopFourBits : Obligations.PayloadMuxDiffersOnlyInTopFourBits := by
  unfold Obligations.PayloadMuxDiffersOnlyInTopFourBits
  intro s hl hvalid
  refine ⟨shrU s.a 4, s.a.sshiftRight 4, exec_getValueUnsigned_valid hl hvalid,
    exec_getValueSigned_valid hl hvalid, fun k hk => ?_, fun k hlo hk => ?_,
    fun hclear => (sshiftRight_eq_shrU_of_signBit_clear hclear 4).symm⟩
  · exact ⟨shrU_getLsbD s.a 4 k, sshiftRight_getLsbD_low s.a hk⟩
  · refine ⟨?_, sshiftRight_getLsbD_high s.a hlo hk⟩
    rw [shrU_getLsbD, BitVec.getLsbD_of_ge _ _ (by omega)]

end Sys2Proof.Machine
end

section
/-! PROOFS. Composition and the prefix constants (spec/42_compose.md R120 to R131): the two fields of a
composed word, what each composition delivers and raises, and the round trips through the
extractions. -/

namespace Sys2Proof.Machine

/-! ### Sign copies: the top bits of a Word in a narrower signed range (R127) -/

theorem getLsbD_eq_false_of_toNat_lt {W n k : Nat} {u : Word W} (h : u.toNat < 2 ^ n)
    (hk : n ≤ k) : u.getLsbD k = false :=
  Nat.testBit_lt_two_pow (h.trans_le (Nat.pow_le_pow_right (by decide) hk))

/-- A Word whose signed reading fits in `n` bits and a sign has copies of its sign from bit `n` up:
zeros where it is not negative, and zeros of its complement where it is. -/
theorem getLsbD_eq_signBit_of_toInt_range {W n k : Nat} {u : Word W} (hlo : -2 ^ n ≤ u.toInt)
    (hhi : u.toInt < 2 ^ n) (hk : n ≤ k) (hkW : k < W) :
    u.getLsbD k = u.getLsbD (W - 1) := by
  have hcast : ((2 ^ n : Nat) : Int) = 2 ^ n := by push_cast; rfl
  obtain ⟨_, hint⟩ | ⟨_, hint⟩ := toInt_cases u
  · have hlt : u.toNat < 2 ^ n := by omega
    rw [getLsbD_eq_false_of_toNat_lt hlt hk, getLsbD_eq_false_of_toNat_lt hlt (by omega)]
  · have hcastW : ((2 ^ W : Nat) : Int) = 2 ^ W := by push_cast; rfl
    have hlt : (~~~u).toNat < 2 ^ n := by rw [BitVec.toNat_not]; omega
    have hset {j : Nat} (hj : n ≤ j) (hjW : j < W) : u.getLsbD j = true := by
      simpa [hjW] using getLsbD_eq_false_of_toNat_lt hlt hj
    rw [hset hk hkW, hset (by omega) (by omega)]

/-- R8: what lies between the Small bounds of a legal configuration fits the payload. -/
theorem toInt_range_of_small {c : Config} (hl : c.legal = true) {z : Int}
    (hmin : c.minNegSmall ≤ z) (hmax : z ≤ c.maxPosSmall) :
    -2 ^ (c.W - 5) ≤ z ∧ z < 2 ^ (c.W - 5) := by
  obtain ⟨hlo, _, hhi⟩ := c.legal_iff.mp hl
  omega

/-! ### The two fields of a composed word (R122, R127) -/

/-- The low four bits of a composed word are the prefix. -/
theorem prefix_or_shl_mod_sixteen (c : Config) (p u : Word c.W) (hp : p.toNat < 2 ^ 4) :
    (p ||| shl u 4).toNat % 16 = p.toNat := by
  rw [prefix_or_shl_toNat c p u hp, c.two_pow_W, Nat.mul_mod_mul_right, Nat.add_mul_mod_self_right]
  exact Nat.mod_eq_of_lt hp

/-- Above the low four bits a composed word has the bits of the payload. -/
theorem prefix_or_shl_getLsbD {W k : Nat} {p : Word W} (u : Word W) (hp : p.toNat < 2 ^ 4)
    (hk : k + 4 < W) : (p ||| shl u 4).getLsbD (k + 4) = u.getLsbD k := by
  rw [BitVec.getLsbD_or, getLsbD_eq_false_of_toNat_lt hp (by omega), Bool.false_or, shl,
    BitVec.getLsbD_shiftLeft, decide_eq_true hk]
  simp

/-- R122: the logical shift takes an unsigned payload in range out again. -/
theorem shrU_prefix_or_shl (c : Config) (p u : Word c.W) (hp : p.toNat < 2 ^ 4)
    (hu : u.toNat < 2 ^ (c.W - 4)) : shrU (p ||| shl u 4) 4 = u := by
  apply BitVec.eq_of_toNat_eq
  rw [shrU_toNat, combineUnsigned_value_toNat c u p hp hu]
  omega

/-- R127: the arithmetic shift takes a signed payload in range out again, because the four bits that
the left shift discards are copies of the sign. -/
theorem sshiftRight_prefix_or_shl (c : Config) (p u : Word c.W) (hp : p.toNat < 2 ^ 4)
    (hlo : -2 ^ (c.W - 5) ≤ u.toInt) (hhi : u.toInt < 2 ^ (c.W - 5)) :
    (p ||| shl u 4).sshiftRight 4 = u := by
  have h4 := c.four_lt_W
  apply BitVec.eq_of_getLsbD_eq
  intro k hk
  by_cases hlow : k < c.W - 4
  · rw [sshiftRight_getLsbD_low _ hlow, prefix_or_shl_getLsbD u hp (by omega)]
  · rw [sshiftRight_getLsbD_high _ (by omega) hk, show c.W - 1 = c.W - 5 + 4 by omega,
      prefix_or_shl_getLsbD u hp (by omega),
      getLsbD_eq_signBit_of_toInt_range hlo hhi (by omega) hk,
      getLsbD_eq_signBit_of_toInt_range hlo hhi (Nat.le_refl _) (by omega)]

/-! ### What the two operations deliver and raise (R120, R121, R126) -/

/-- R120: the prefix check of either composition comes first. -/
theorem composition_tableFault_prefix {c : Config} {i : Instr} (a : Word c.W) {b : Word c.W}
    (hi : i = .combineUnsigned ∨ i = .combineSigned) (hb : 2 ^ 4 ≤ b.toNat) :
    tableFault c i a b = some .prefixOutOfRange := by
  obtain rfl | rfl := hi <;> exact if_pos hb

section
variable {s : State} (hl : s.cfg.legal = true) (hb : s.b.toNat < 2 ^ 4)
include hl hb

/-- R121, where both checks pass. -/
theorem exec_combineUnsigned_inRange (ha : s.a.toNat < 2 ^ (s.cfg.W - 4)) :
    exec .combineUnsigned s = .next (s.deliver (s.b ||| shl s.a 4)) := by
  have hf : tableFault s.cfg .combineUnsigned s.a s.b = none :=
    (if_neg (Nat.not_le.mpr hb)).trans (if_neg (Nat.not_le.mpr ha))
  obtain ⟨v, hv, he⟩ := exec_eq_deliver hl hf
  obtain rfl : v = s.b ||| shl s.a 4 :=
    BitVec.eq_of_toNat_eq (hv.trans (combineUnsigned_value_toNat s.cfg s.a s.b hb ha).symm)
  exact he

/-- R126, where both checks pass. -/
theorem exec_combineSigned_inRange (hmin : s.cfg.minNegSmall ≤ s.a.toInt)
    (hmax : s.a.toInt ≤ s.cfg.maxPosSmall) :
    exec .combineSigned s = .next (s.deliver (s.b ||| shl s.a 4)) := by
  have hf : tableFault s.cfg .combineSigned s.a s.b = none :=
    (if_neg (Nat.not_le.mpr hb)).trans (if_neg (by omega))
  obtain ⟨v, hv, he⟩ := exec_eq_deliver hl hf
  obtain rfl : v = s.b ||| shl s.a 4 :=
    BitVec.eq_of_toNat_eq (hv.trans (prefix_or_shl_toNat s.cfg s.b s.a hb).symm)
  exact he

end

/-- Settles O17: both checks passed deliver the composed word; each check failed raises its row of the
fault table. -/
theorem combineUnsignedResult : Obligations.CombineUnsignedResult := by
  unfold Obligations.CombineUnsignedResult
  refine ⟨rfl, fun s hl => ⟨fun hb ha => ?_, fun hb => ?_, fun hb ha => ?_⟩⟩
  · exact ⟨s.b ||| shl s.a 4, rfl, exec_combineUnsigned_inRange hl hb ha⟩
  · exact ⟨_, exec_eq_raiseFatal hl (composition_tableFault_prefix s.a (.inl rfl) hb)⟩
  · exact ⟨_, exec_eq_raiseFatal (i := .combineUnsigned) hl
      ((if_neg (Nat.not_le.mpr hb)).trans (if_pos ha))⟩

/-- Settles O18: as O17, and the pattern of the operand's signed reading is the operand itself. -/
theorem combineSignedResult : Obligations.CombineSignedResult := by
  unfold Obligations.CombineSignedResult
  refine ⟨rfl, fun s hl => ⟨fun hb hmin hmax => ?_, fun hb => ?_, fun hb ha => ?_⟩⟩
  · refine ⟨s.b ||| shl s.a 4, ?_, exec_combineSigned_inRange hl hb hmin hmax⟩
    rw [BitVec.ofInt_toInt, shl]
  · exact ⟨_, exec_eq_raiseFatal hl (composition_tableFault_prefix s.a (.inr rfl) hb)⟩
  · exact ⟨_, exec_eq_raiseFatal (i := .combineSigned) hl
      ((if_neg (Nat.not_le.mpr hb)).trans (if_pos ha))⟩

/-- Settles O32: the prefix check fails, so its row of the fault table is taken whatever the value. -/
theorem prefixFaultHasPriority : Obligations.PrefixFaultHasPriority := by
  unfold Obligations.PrefixFaultHasPriority
  intro s hl hb
  have hraise {i : Instr} (hi : i = .combineUnsigned ∨ i = .combineSigned) :
      exec i s = .next (s.raiseFatal i .prefixOutOfRange) :=
    exec_eq_raiseFatal hl (composition_tableFault_prefix s.a hi hb)
  exact ⟨fun _ => ⟨_, hraise (.inl rfl), rfl, rfl⟩, fun _ => ⟨_, hraise (.inr rfl), rfl, rfl⟩⟩

/-! ### No bit is lost (R122, R127) -/

/-- Settles O23: the composed word is the sum, whose remainder and quotient by 16 are its two
fields. -/
theorem unsignedCompositionLosesNoBit : Obligations.UnsignedCompositionLosesNoBit := by
  unfold Obligations.UnsignedCompositionLosesNoBit
  intro s hl hb ha
  have hsum := combineUnsigned_value_toNat s.cfg s.a s.b hb ha
  have hvalue := congrArg BitVec.toNat (shrU_prefix_or_shl s.cfg s.b s.a hb ha)
  rw [shrU_toNat] at hvalue
  exact ⟨_, exec_combineUnsigned_inRange hl hb ha, hsum,
    prefix_or_shl_mod_sixteen s.cfg s.b s.a hb, hvalue⟩

/-- Settles O24: R8 puts the value in the payload's signed range, so its top five bits are copies of
its sign and the arithmetic shift restores it. -/
theorem signedCompositionLosesNoBit : Obligations.SignedCompositionLosesNoBit := by
  unfold Obligations.SignedCompositionLosesNoBit
  intro s hl hb hmin hmax
  obtain ⟨hlo, hhi⟩ := toInt_range_of_small hl hmin hmax
  have hvalue := sshiftRight_toInt_eq_shrS (s.b ||| shl s.a 4) 4
  rw [sshiftRight_prefix_or_shl s.cfg s.b s.a hb hlo hhi, toSigned_eq_toInt] at hvalue
  exact ⟨_, exec_combineSigned_inRange hl hb hmin hmax, prefix_or_shl_toNat s.cfg s.b s.a hb,
    hvalue.symm, fun k hk hkW => getLsbD_eq_signBit_of_toInt_range hlo hhi hk hkW⟩

/-! ### The prefix constants (R130, R131) -/

/-- R130, as the source writes it. -/
theorem State.pfx_toNat_eq_or (s : State) (t : SubtypeTag) :
    (s.pfx t).toNat = s.cfg.primaryImmediate.toNat ||| t.code.toNat <<< 2 := by
  rw [tag_or_shift _ _ s.cfg.primaryImmediate_lt, s.pfx_toNat]

/-- The tags of a word composed with a prefix constant are the constant's. -/
theorem State.composed_tags {s : State} {k : SubtypeTag} {p : Word s.cfg.W} (u : Word s.cfg.W)
    (hp : p.toNat = (s.pfx k).toNat) :
    (p ||| shl u 4).toNat % 4 = s.cfg.primaryImmediate.toNat ∧
      (p ||| shl u 4).toNat / 4 % 4 = k.code.toNat := by
  rw [← s.mod_sixteen_eq_pfx_iff, ← hp]
  exact prefix_or_shl_mod_sixteen s.cfg p u (hp.trans_lt (s.pfx k).isLt)

/-- Settles O27: the constants are `pfx`'s closed form at the four codes, and no operation writes the
configuration they are computed from. -/
theorem prefixOutputsAreTheConstants : Obligations.PrefixOutputsAreTheConstants := by
  unfold Obligations.PrefixOutputsAreTheConstants
  intro s
  refine ⟨s.pfx_toNat_eq_or .pid, s.pfx_toNat_eq_or .port, s.pfx_toNat_eq_or .imm2,
    s.pfx_toNat_eq_or .small, fun i t he k => ?_⟩
  rw [State.pfx, exec_cfg he, State.pfx]

/-- Settles O28: a constant passes the prefix check of either composition, and the composed word has
the constant's primary tag. -/
theorem prefixConstantsMakeValidWords : Obligations.PrefixConstantsMakeValidWords := by
  unfold Obligations.PrefixConstantsMakeValidWords
  intro s k hl hk
  have hb : s.b.toNat < 2 ^ 4 := hk.trans_lt (s.pfx k).isLt
  obtain ⟨hvalid, _⟩ := State.composed_tags s.a hk
  have hprimary : (s.pfx k).toNat % 4 = s.cfg.primaryImmediate.toNat := by
    have := s.cfg.primaryImmediate_lt
    rw [s.pfx_toNat]
    omega
  exact ⟨(s.pfx k).isLt, hprimary,
    fun ha => ⟨_, exec_combineUnsigned_inRange hl hb ha, rfl, hvalid⟩,
    fun hmin hmax => ⟨_, exec_combineSigned_inRange hl hb hmin hmax, rfl, hvalid⟩⟩

/-! ### The round trips (R123, R128) -/

/-- IS_IMM1 gives 1 for every valid word (R81). -/
theorem exec_isImm1_valid {s : State} (hl : s.cfg.legal = true)
    (hvalid : s.a.toNat % 4 = s.cfg.primaryImmediate.toNat) :
    ∃ one, one.toNat = 1 ∧ exec .isImm1 s = .next (s.deliver one) := by
  obtain ⟨one, hone, he⟩ := exec_eq_deliver (i := .isImm1) hl rfl
  exact ⟨one, hone.trans ((tableResult_isImm1_eq_one_iff s.cfg s.a s.b).mpr hvalid), he⟩

/-- GET_TAG gives bits 3:2 of every word (R90, R92). -/
theorem exec_getTag_deliver {s : State} (hl : s.cfg.legal = true) :
    ∃ tag, tag.toNat = s.a.toNat / 4 % 4 ∧ exec .getTag s = .next (s.deliver tag) :=
  exec_eq_deliver hl (getTag_tableFault s.cfg s.a s.b)

/-- IS_IMM1 and GET_TAG read both tags of a word composed with a prefix constant. -/
theorem exec_tags_of_composed {s : State} {k : SubtypeTag} {p : Word s.cfg.W} (u : Word s.cfg.W)
    (hl : s.cfg.legal = true) (hp : p.toNat = (s.pfx k).toNat) :
    ∃ one tag : Word s.cfg.W, one.toNat = 1 ∧ tag.toNat = k.code.toNat ∧
      exec .isImm1 { s with a := p ||| shl u 4 } =
        .next (State.deliver { s with a := p ||| shl u 4 } one) ∧
      exec .getTag { s with a := p ||| shl u 4 } =
        .next (State.deliver { s with a := p ||| shl u 4 } tag) := by
  obtain ⟨hvalid, htag⟩ := State.composed_tags u hp
  obtain ⟨one, hone, hisImm1⟩ := exec_isImm1_valid (s := { s with a := p ||| shl u 4 }) hl hvalid
  obtain ⟨tag, hbits, hgetTag⟩ := exec_getTag_deliver (s := { s with a := p ||| shl u 4 }) hl
  exact ⟨one, tag, hone, hbits.trans htag, hisImm1, hgetTag⟩

/-- Settles O25: the prefix is the constant of the subtype that `t` names, so both tags of the composed
word are read back, and the logical shift gives the payload. -/
theorem unsignedRoundTrip : Obligations.UnsignedRoundTrip := by
  unfold Obligations.UnsignedRoundTrip
  intro s t v p hl hv hp
  have hpfx : p.toNat = (s.pfx (.ofCode t)).toNat := by
    rw [hp, s.pfx_toNat_eq_or, SubtypeTag.code_ofCode]
  have hb : p.toNat < 2 ^ 4 := hpfx.trans_lt (s.pfx _).isLt
  obtain ⟨hvalid, _⟩ := State.composed_tags v hpfx
  obtain ⟨one, tag, hone, htag, hisImm1, hgetTag⟩ := exec_tags_of_composed v hl hpfx
  rw [SubtypeTag.code_ofCode] at htag
  exact ⟨_, one, tag, _, exec_combineUnsigned_inRange (s := { s with a := v, b := p }) hl hb hv,
    hisImm1, hgetTag,
    exec_getValueUnsigned_valid (s := { s with a := p ||| shl v 4 }) hl hvalid,
    hone, htag, shrU_prefix_or_shl s.cfg p v hb hv⟩

/-- Settles O26: as O25 with the Small constant, and the arithmetic shift gives the payload because R8
keeps the bounds in its range. -/
theorem signedRoundTrip : Obligations.SignedRoundTrip := by
  unfold Obligations.SignedRoundTrip
  intro s v p hl hmin hmax hp
  have hb : p.toNat < 2 ^ 4 := hp.trans_lt (s.pfx .small).isLt
  obtain ⟨hlo, hhi⟩ := toInt_range_of_small hl hmin hmax
  obtain ⟨hvalid, _⟩ := State.composed_tags v hp
  obtain ⟨one, tag, hone, htag, hisImm1, hgetTag⟩ := exec_tags_of_composed v hl hp
  exact ⟨_, one, tag, _,
    exec_combineSigned_inRange (s := { s with a := v, b := p }) hl hb hmin hmax,
    hisImm1, hgetTag,
    exec_getValueSigned_valid (s := { s with a := p ||| shl v 4 }) hl hvalid,
    hone, htag, sshiftRight_prefix_or_shl s.cfg p v hb hlo hhi⟩

end Sys2Proof.Machine
end

section
/-! PROOFS. The fatal outcome (spec/60_exceptions.md R140 to R144): when an operation takes it, what it
records, what it leaves of the run's results, and that it ends the run. -/

namespace Sys2Proof.Machine

/-! ### When an operation is fatal, and what it records (R140, R142) -/

/-- Settles O30: the row of the fault table decides whether the operation delivers a result or
raises the tabulated code. -/
theorem fatalExactlyAsTabulated : Obligations.FatalExactlyAsTabulated := by
  unfold Obligations.FatalExactlyAsTabulated
  refine ⟨rfl, rfl, rfl, rfl, rfl, fun i s hl => ?_⟩
  cases hf : tableFault s.cfg i s.a s.b with
  | none =>
    obtain ⟨v, _, he⟩ := exec_eq_deliver hl hf
    exact ⟨_, he, s.deliver_fatal v, s.deliver_fcode v⟩
  | some code =>
    exact ⟨_, exec_eq_raiseFatal hl hf, s.raiseFatal_fatal i code, s.raiseFatal_fcode i code⟩

/-- Settles O31: a tabulated fault raises the fatal outcome, whose update is the one stated, with
the free value on `y`. -/
theorem fatalOutcomeRecordsTheOperation : Obligations.FatalOutcomeRecordsTheOperation := by
  unfold Obligations.FatalOutcomeRecordsTheOperation
  intro i s code hl hf
  exact ⟨s.cfg.fatalY (encode i) s.a s.b, exec_eq_raiseFatal hl hf⟩

/-! ### The results of the run (R144) -/

/-- An operation adds no result, or it is not fatal and adds its own. -/
theorem exec_results {i : Instr} {s t : State} (h : exec i s = .next t) :
    t.results.map BitVec.toNat = s.results.map BitVec.toNat ∨
    (t.fatal = 0#1 ∧
      t.results.map BitVec.toNat = s.results.map BitVec.toNat ++ [t.y.toNat]) := by
  obtain ⟨o, ho⟩ := exec_eq_conclude i s
  rw [ho] at h
  obtain ⟨_, ⟨v, _, rfl⟩ | ⟨code, _, rfl⟩⟩ := conclude_next h
  · exact .inr ⟨s.deliver_fatal v, by simp⟩
  · exact .inl (by simp)

/-- Settles O38: an idle step keeps the state, and presenting a command leaves the results to the
operation it issues. -/
theorem earlierResultsAreKept : Obligations.EarlierResultsAreKept := by
  unfold Obligations.EarlierResultsAreKept
  intro s t h
  obtain ⟨_, ⟨_, rfl⟩ | ⟨c, rest, a, b, _, _, _, he⟩⟩ := step_next h
  · exact .inl rfl
  · exact exec_results (s := s.present c.op a b rest) he

/-! ### The end of the run (R143) -/

/-- Once the fault record is set, a step issues nothing and faults with the recorded code
(log 4). -/
theorem step_aborted {s : State} {r : FaultRecord s.cfg.W} (h : s.faultRec = some r) :
    step s = .fault (.runAborted r.code) := by
  rw [step, issueNext_aborted h]

/-- A run of at least one step ends in the fault of its first step. -/
theorem run_succ_of_step_fault {M : Host.Core} {s : M.State} {f : M.Fault}
    (h : M.step s = .fault f) (k : Nat) : M.run (k + 1) s = .fault f := by
  rw [Host.Core.run, h]

theorem State.succeeded_eq_false_of_faultRec {s : State} {r : FaultRecord s.cfg.W}
    (h : s.faultRec = some r) : s.succeeded = false := by simp [State.succeeded, h]

/-- Settles O41: the first step of any further run faults, so neither it nor the run answers a next
state. -/
theorem fatalOutcomeEndsTheRun : Obligations.FatalOutcomeEndsTheRun := by
  unfold Obligations.FatalOutcomeEndsTheRun
  intro s r hrec
  have hstep : step s = .fault (.runAborted r.code) := step_aborted hrec
  refine ⟨State.succeeded_eq_false_of_faultRec hrec, fun t ht => ?_, fun k t ht => ?_⟩
  · cases hstep.symm.trans ht
  · cases (run_succ_of_step_fault (M := core) hstep k).symm.trans ht

end Sys2Proof.Machine
end

section
/-! PROOFS. Reset and hazards (spec/70_reset_and_hazards.md R173, R175): what a codec whose bounds
break R8 refuses, what a caller that keeps its contract gets, and the reasons a step stops. -/

namespace Sys2Proof.Machine

/-! ### Illegal configurations (R8, R173) -/

/-- Every operation ends through `conclude`, which refuses an illegal configuration. -/
theorem exec_illegal {s : State} (h : s.cfg.legal = false) (i : Instr) :
    exec i s = .refused .illegalConfiguration := by
  obtain ⟨o, ho⟩ := exec_eq_conclude i s
  rw [ho, conclude_illegal i s o h]

/-- Settles O34: bounds that break R8 are what `legal` rejects. -/
theorem illegalConfigurationRefused : Obligations.IllegalConfigurationRefused := by
  unfold Obligations.IllegalConfigurationRefused
  intro i s h
  rw [← s.cfg.legal_iff, Bool.not_eq_true] at h
  exact exec_illegal h i

/-! ### The caller's contract (R175) -/

/-- The caller's contract excludes every fault of the operation's row of the fault table. -/
theorem tableFault_eq_none_of_callerContract {c : Config} {i : Instr} {a b : Word c.W}
    (h : callerContract c i a b) : tableFault c i a b = none := by
  cases i with
  | isImm1 | getPrefix | getPrefixAndTag => rfl
  | getTag => exact getTag_tableFault c a b
  | getValueUnsigned | getValueSigned => exact if_pos h
  | combineUnsigned =>
    obtain ⟨hb, ha⟩ := h
    exact (if_neg (Nat.not_le.mpr hb)).trans (if_neg (Nat.not_le.mpr ha))
  | combineSigned =>
    obtain ⟨hb, hmin, hmax⟩ := h
    exact (if_neg (Nat.not_le.mpr hb)).trans (if_neg (by omega))

/-- Settles O33: under the contract the fault table has no fault, so the operation delivers its
tabulated result. -/
theorem callersContractPreventsFaults : Obligations.CallersContractPreventsFaults := by
  unfold Obligations.CallersContractPreventsFaults
  intro i s hl hc
  exact exec_eq_deliver hl (tableFault_eq_none_of_callerContract hc)

/-! ### Why a step stops (R143, R173, log 7) -/

/-- An operation of a legal configuration completes or takes the fatal outcome: either is a next
state. -/
theorem exec_legal_next {s : State} (hl : s.cfg.legal = true) (i : Instr) :
    ∃ t, exec i s = .next t := by
  cases hf : tableFault s.cfg i s.a s.b with
  | none =>
    obtain ⟨v, _, he⟩ := exec_eq_deliver hl hf
    exact ⟨s.deliver v, he⟩
  | some code => exact ⟨s.raiseFatal i code, exec_eq_raiseFatal hl hf⟩

theorem step_idle {s : State} (h : s.faultRec = none) (hp : s.pending = []) :
    step s = .next s := by
  rw [step, issueNext_idle h hp]

theorem step_operation {s : State} {c : Command} {rest : List Command} {a b : Word s.cfg.W}
    (h : s.faultRec = none) (hp : s.pending = c :: rest) (ha : s.operand c.a = some a)
    (hb : s.operand c.b = some b) :
    step s = exec (decodeOp c.op) (s.present c.op a b rest) := by
  rw [step, issueNext_operation h hp ha hb]

theorem step_undefinedOperand {s : State} {c : Command} {rest : List Command}
    (h : s.faultRec = none) (hp : s.pending = c :: rest)
    (hu : s.operand c.a = none ∨ s.operand c.b = none) :
    step s = .refused .operandNotDefined := by
  have hissue : s.issueNext = .undefinedOperand := by
    obtain ha | hb := hu
    · simp [State.issueNext, h, hp, ha]
    · cases ha : s.operand c.a <;> simp [State.issueNext, h, hp, ha, hb]
  rw [step, hissue]

/-- Why a step that has the command `c` to issue may refuse with `q`. -/
def State.RefusalReason (s : State) (c : Command) (q : Refusal) : Prop :=
  (q = .illegalConfiguration ∧ s.cfg.legal = false) ∨
  (q = .operandNotDefined ∧ (s.operand c.a = none ∨ s.operand c.b = none))

/-- With no fault recorded and a command pending, a step answers a next state or refuses for a
reason. -/
theorem step_pending_cases {s : State} {c : Command} {rest : List Command}
    (h : s.faultRec = none) (hp : s.pending = c :: rest) :
    (∃ t, step s = .next t) ∨ ∃ q, step s = .refused q ∧ s.RefusalReason c q := by
  cases ha : s.operand c.a with
  | none => exact .inr ⟨_, step_undefinedOperand h hp (.inl ha), .inr ⟨rfl, .inl ha⟩⟩
  | some a =>
    cases hb : s.operand c.b with
    | none => exact .inr ⟨_, step_undefinedOperand h hp (.inr hb), .inr ⟨rfl, .inr hb⟩⟩
    | some b =>
      rw [step_operation h hp ha hb]
      cases hl : s.cfg.legal with
      | true => exact .inl (exec_legal_next (s := s.present c.op a b rest) hl _)
      | false =>
        exact .inr ⟨_, exec_illegal (s := s.present c.op a b rest) hl _, .inl ⟨rfl, hl⟩⟩

/-- Everything a step can be: the fault of an aborted run, a next state, or the refusal of a pending
command for a reason. -/
theorem step_cases (s : State) :
    (∃ r, s.faultRec = some r ∧ step s = .fault (.runAborted r.code)) ∨
    (∃ t, step s = .next t) ∨
    (s.faultRec = none ∧ ∃ c rest, s.pending = c :: rest ∧
      ∃ q, step s = .refused q ∧ s.RefusalReason c q) := by
  cases hrec : s.faultRec with
  | some r => exact .inl ⟨r, rfl, step_aborted hrec⟩
  | none =>
    cases hp : s.pending with
    | nil => exact .inr (.inl ⟨s, step_idle hrec hp⟩)
    | cons c rest =>
      obtain hnext | hrefused := step_pending_cases hrec hp
      · exact .inr (.inl hnext)
      · exact .inr (.inr ⟨rfl, c, rest, rfl, hrefused⟩)

/-- Settles O43: of the outcomes a step can have, only that of an aborted run is a fault, and only
that of a pending command is a refusal. -/
theorem stepStopsOnlyForTheseReasons : Obligations.StepStopsOnlyForTheseReasons := by
  unfold Obligations.StepStopsOnlyForTheseReasons
  intro s
  obtain ⟨r, hrec, hs⟩ | ⟨t, hs⟩ | ⟨hrec, c, rest, hp, q, hs, hreason⟩ := step_cases s
  · rw [hs]
    exact ⟨fun f hf => ⟨r, hrec, (Host.Outcome.fault.inj hf).symm⟩, nofun⟩
  · rw [hs]
    exact ⟨nofun, nofun⟩
  · rw [hs]
    refine ⟨nofun, fun q' hq => ?_⟩
    obtain rfl := Host.Outcome.refused.inj hq
    exact ⟨hrec, c, rest, hp, hreason⟩

end Sys2Proof.Machine
end

section
/-! PROOFS. Scripts (spec/30_encoding.md R65, R71): command words that are no operation, the line a
command is the encoding of, and the values of the operand forms. -/

namespace Sys2Proof

/-! ### Command words (R65) -/

/-- A word with a bit above the op field is refused by name (log 8). -/
theorem decodeWord_of_le {w : Nat} (h : 8 ≤ w) : decodeWord w = .error (.widerThanOp w) :=
  if_neg (Nat.not_lt.mpr h)

/-- A word read as an operation is that operation's code, with nothing above the op field. -/
theorem decodeWord_eq_ok_iff {w : Nat} {i : Instr} :
    decodeWord w = .ok i ↔ w = (encode i).toNat := by
  constructor
  · intro h
    rcases Nat.lt_or_ge w 8 with hw | hw
    · have hop : (BitVec.ofNat 3 w).toNat = w := Nat.mod_eq_of_lt hw
      rw [← hop, decodeWord_toNat] at h
      rw [← Except.ok.inj h, encode_decodeOp, hop]
    · cases (decodeWord_of_le hw).symm.trans h
  · rintro rfl
    rw [decodeWord_toNat, decodeOp_encode]

theorem decodeTableWord_eq_some_iff {nbits w : Nat} {i : Instr} :
    decodeTableWord nbits w = some i ↔ w % 2 ^ nbits = (encode i).toNat := by
  rw [← decodeWord_eq_ok_iff, decodeTableWord]
  cases decodeWord (w % 2 ^ nbits) <;> simp

/-- Settles O3: a word that fits its `nbits` is decoded whole, and the decoder refuses 8 and more. -/
theorem commandWordsAboveThreeBitsRefused : Obligations.CommandWordsAboveThreeBitsRefused := by
  unfold Obligations.CommandWordsAboveThreeBitsRefused
  intro w hw
  refine ⟨decodeWord_of_le hw, fun nbits hlt => ?_⟩
  rw [decodeTableWord, Nat.mod_eq_of_lt hlt, decodeWord_of_le hw]

/-! ### Script lines (R71) -/

/-- The two shapes of a well-formed line: one operand where the operation reads no `b`, and two
where it does. -/
theorem ScriptLine.wf_cases {W earlier : Nat} {l : ScriptLine} (h : l.wf W earlier = true) :
    l.a.wf W earlier = true ∧
      ((l.instr.readsB = false ∧ l.b = none) ∨
       ∃ o, l.instr.readsB = true ∧ l.b = some o ∧ o.wf W earlier = true) := by
  obtain ⟨i, a, b⟩ := l
  cases b <;> simpa [ScriptLine.wf] using h

@[simp] theorem encodeLine_op (l : ScriptLine) : (encodeLine l).op = encode l.instr := rfl

@[simp] theorem encodeLine_a (l : ScriptLine) : (encodeLine l).a = l.a := rfl

/-- R71: `b = 0` where the operation reads no `b`. -/
theorem encodeLine_b_of_not_readsB {l : ScriptLine} (h : l.instr.readsB = false) :
    (encodeLine l).b = .num 0 := by simp [encodeLine, h]

theorem encodeLine_b_of_readsB {l : ScriptLine} {o : Operand} (h : l.instr.readsB = true)
    (hb : l.b = some o) : (encodeLine l).b = o := by simp [encodeLine, h, hb]

/-- The command of a well-formed line is read back as the line. -/
theorem decodeLine_encodeLine {W earlier : Nat} {l : ScriptLine} (h : l.wf W earlier = true) :
    decodeLine (encodeLine l) = l := by
  obtain ⟨_, ⟨hr, hb⟩ | ⟨o, hr, hb, _⟩⟩ := l.wf_cases h
  · simp [decodeLine, hr, ← hb]
  · simp [decodeLine, hr, encodeLine_b_of_readsB hr hb, ← hb]

/-- Settles O4: a well-formed line has a second operand exactly where its operation reads `b`, which
is where `decodeLine` reads one back. -/
theorem scriptLineRoundTrip : Obligations.ScriptLineRoundTrip := by
  unfold Obligations.ScriptLineRoundTrip
  intro W earlier l h
  exact ⟨decodeLine_encodeLine h, encodeLine_op l, encodeLine_b_of_not_readsB⟩

theorem numeralFits_zero (W : Nat) : numeralFits W 0 = true := by
  rw [Machine.numeralFits_iff]
  exact ⟨neg_nonpos.mpr (by positivity), by positivity⟩

/-- Both operands of the command of a well-formed line are well formed, the 0 put in for an unread
`b` among them. -/
theorem encodeLine_operands_wf {W earlier : Nat} {l : ScriptLine} (h : l.wf W earlier = true) :
    (encodeLine l).a.wf W earlier = true ∧ (encodeLine l).b.wf W earlier = true := by
  obtain ⟨ha, ⟨hr, _⟩ | ⟨o, hr, hb, ho⟩⟩ := l.wf_cases h
  · rw [encodeLine_b_of_not_readsB hr]
    exact ⟨ha, numeralFits_zero W⟩
  · rw [encodeLine_b_of_readsB hr hb]
    exact ⟨ha, ho⟩

namespace Machine

/-! ### The operand forms (R71, log 7) -/

theorem State.operand_num {s : State} {v : Int} (h : numeralFits s.cfg.W v = true) :
    s.operand (.num v) = some (toUnsigned s.cfg.W v) := if_pos h

theorem State.operand_num_eq_none {s : State} {v : Int} (h : ¬ numeralFits s.cfg.W v = true) :
    s.operand (.num v) = none := if_neg h

theorem State.operand_result_succ (s : State) (m : Nat) :
    s.operand (.result (m + 1)) = s.results[m]? := rfl

theorem State.operand_const (s : State) (c : ConstName) :
    s.operand (.const c) = some (constValue s.cfg c) := rfl

/-- A non-negative numeral below `2^W` puts itself on the port. -/
theorem State.operand_num_nonneg {s : State} {v : Int} (h0 : 0 ≤ v) (hv : v < 2 ^ s.cfg.W) :
    ∃ w, s.operand (.num v) = some w ∧ w.toNat = v.toNat := by
  have hlow : -(2 : Int) ^ (s.cfg.W - 1) ≤ v := (neg_nonpos.mpr (by positivity)).trans h0
  refine ⟨_, State.operand_num ((numeralFits_iff ..).mpr ⟨hlow, hv⟩), ?_⟩
  rw [← Int.toNat_natCast (BitVec.toNat _), toUnsigned_toNat, Int.emod_eq_of_lt h0 hv]

/-- A Word written as a numeral is that Word. -/
theorem State.operand_num_toNat (s : State) (u : Word s.cfg.W) :
    s.operand (.num u.toNat) = some u := by
  obtain ⟨w, hw, hnat⟩ := s.operand_num_nonneg (Int.natCast_nonneg u.toNat)
    (by exact_mod_cast u.isLt)
  rw [hw, BitVec.eq_of_toNat_eq hnat]

theorem toInt_toUnsigned (c : Config) {z : Int} (hlo : -2 ^ (c.W - 1) ≤ z)
    (hhi : z < 2 ^ (c.W - 1)) : (toUnsigned c.W z).toInt = z := by
  have := c.four_lt_W
  rw [← toSigned_eq_toInt, toSigned_toUnsigned (by omega) hlo hhi]

/-- A negative numeral puts its two's-complement pattern on the port (R12). -/
theorem State.operand_num_neg {s : State} {v : Int} (hneg : v < 0) (hv : -2 ^ (s.cfg.W - 1) ≤ v) :
    ∃ w, s.operand (.num v) = some w ∧ w.toInt = v := by
  have hfits : numeralFits s.cfg.W v = true :=
    (numeralFits_iff ..).mpr ⟨hv, hneg.trans (by positivity)⟩
  exact ⟨_, State.operand_num hfits, toInt_toUnsigned s.cfg hv (hneg.trans (by positivity))⟩

/-- R8: what lies between the Small bounds of a legal configuration is a SignedWord, so its pattern
has its value. -/
theorem toInt_toUnsigned_of_small {c : Config} (hl : c.legal = true) {z : Int}
    (hmin : c.minNegSmall ≤ z) (hmax : z ≤ c.maxPosSmall) : (toUnsigned c.W z).toInt = z := by
  obtain ⟨hlo, hhi⟩ := toInt_range_of_small hl hmin hmax
  have hpow : (2 : Int) ^ (c.W - 5) ≤ 2 ^ (c.W - 1) := pow_le_pow_right₀ (by decide) (by omega)
  exact toInt_toUnsigned c (by omega) (by omega)

/-- Exactly the well-formed operands have a value: the results a line may name are those the run
has so far (log 7). -/
theorem State.operand_isSome (s : State) (o : Operand) :
    (s.operand o).isSome = o.wf s.cfg.W s.results.length := by
  rw [Bool.eq_iff_iff]
  cases o with
  | num v => simp [State.operand, Operand.wf]
  | result m => cases m <;> simp [State.operand, Operand.wf]
  | const c => simp [State.operand, Operand.wf]

theorem State.operand_of_wf {s : State} {o : Operand}
    (h : o.wf s.cfg.W s.results.length = true) : ∃ w, s.operand o = some w :=
  Option.isSome_iff_exists.mp ((s.operand_isSome o).trans h)

/-- Settles O44: numerals by the sign of `v` and whether they fit, results by their position in the
list, and constants by their definition, the Small bounds as SignedWords. -/
theorem operandFormsHaveTheirValues : Obligations.OperandFormsHaveTheirValues := by
  unfold Obligations.OperandFormsHaveTheirValues
  intro s
  refine ⟨fun v => State.operand_num_nonneg, fun v => State.operand_num_neg, ?_, ?_, ?_, rfl,
    ?_, fun hl => ?_⟩
  · intro v hout
    refine State.operand_num_eq_none fun hfits => ?_
    obtain ⟨hlo, hhi⟩ := (numeralFits_iff ..).mp hfits
    omega
  · intro m v hm
    rw [State.operand_result_succ, hm]
  · intro m hm
    rw [State.operand_result_succ, List.getElem?_eq_none hm]
  · intro t
    exact ⟨_, s.operand_const _, zext_toNat (prefixConst s.cfg t) s.cfg.four_lt_W.le⟩
  · obtain ⟨_, hle, _⟩ := s.cfg.legal_iff.mp hl
    exact ⟨⟨_, s.operand_const _, toInt_toUnsigned_of_small hl le_rfl hle⟩,
      ⟨_, s.operand_const _, toInt_toUnsigned_of_small hl hle le_rfl⟩⟩

end Machine

end Sys2Proof
end

section
/-! PROOFS. What the environment issues in a step (spec/10_state.md R22, R28, R29): the next command of
its queue, nothing when none is pending or the run has aborted, and the state after reset. -/

namespace Sys2Proof.Machine

/-! ### The next command (R22) -/

/-- Settles O39: presenting a command is the update stated. -/
theorem stepRunsTheDecodedOperation : Obligations.StepRunsTheDecodedOperation := by
  unfold Obligations.StepRunsTheDecodedOperation
  intro s c rest a b hrec hp ha hb
  exact step_operation hrec hp ha hb

/-- No operation touches the environment's queue or the op port (R22, R44). -/
theorem exec_pending_op {i : Instr} {s t : State} (h : exec i s = .next t) :
    t.pending = s.pending ∧ t.op = s.op := by
  obtain ⟨o, ho⟩ := exec_eq_conclude i s
  rw [ho] at h
  obtain ⟨_, ⟨v, _, rfl⟩ | ⟨code, _, rfl⟩⟩ := conclude_next h
  · exact ⟨s.deliver_pending v, s.deliver_op v⟩
  · exact ⟨s.raiseFatal_pending i code, s.raiseFatal_op i code⟩

/-- Settles O45: both operands of a well-formed line's command have values, so the step presents the
command, and its operation answers a next state with the queue and the op port as presented. -/
theorem wellFormedLinesCanBeIssued : Obligations.WellFormedLinesCanBeIssued := by
  unfold Obligations.WellFormedLinesCanBeIssued
  intro s l rest hl hwf hrec hp
  obtain ⟨hwfa, hwfb⟩ := encodeLine_operands_wf hwf
  obtain ⟨a, ha⟩ := State.operand_of_wf hwfa
  obtain ⟨b, hb⟩ := State.operand_of_wf hwfb
  obtain ⟨t, he⟩ := exec_legal_next (s := s.present (encodeLine l).op a b rest) hl
    (decodeOp (encodeLine l).op)
  obtain ⟨hpending, hop⟩ := exec_pending_op he
  exact ⟨t, (step_operation hrec hp ha hb).trans he, hpending, hop⟩

/-- A step from a state with an op code placed first runs its operation on the operands now on the
ports. -/
theorem step_placeFirst {s : State} (h : s.faultRec = none) (op : BitVec 3) :
    step (s.placeFirst op) = exec (decodeOp op) { s with op := op } :=
  step_operation (s := s.placeFirst op) h (s.placeFirst_pending op)
    (s.operand_num_toNat s.a) (s.operand_num_toNat s.b)

/-- Settles O46: a word that decodes to an operation is that operation's code, and placing it puts that
code on the op port. -/
theorem placedCommandWordRunsNext : Obligations.PlacedCommandWordRunsNext := by
  unfold Obligations.PlacedCommandWordRunsNext
  intro s nbits w i hrec hw
  rw [State.withFetchWord, decodeTableWord_eq_some_iff.mp hw, BitVec.ofNat_toNat,
    BitVec.setWidth_eq, step_placeFirst hrec, decodeOp_encode]

/-! ### Steps that issue nothing (R28, R143, logs 4 and 6) -/

/-- Settles O40: with nothing to issue the step is idle. -/
theorem idleStepChangesNothing : Obligations.IdleStepChangesNothing := by
  unfold Obligations.IdleStepChangesNothing
  intro s hrec hp
  exact step_idle hrec hp

/-- Settles O42: a set fault record decides the step before the queue is looked at. -/
theorem abortedRunFaultsAtEveryStep : Obligations.AbortedRunFaultsAtEveryStep := by
  unfold Obligations.AbortedRunFaultsAtEveryStep
  intro s r hrec
  exact step_aborted hrec

/-! ### The state after reset (R29) -/

/-- Settles O47: reset has no fault record and nothing pending, so its step is idle. -/
theorem resetHasNoFaultRecord : Obligations.ResetHasNoFaultRecord := by
  unfold Obligations.ResetHasNoFaultRecord
  exact ⟨rfl, rfl, rfl, step_idle rfl rfl⟩

/-- The outputs held at reset are those of IS_IMM1 on the word 0, which is not Immediate1 in the
chosen build, so the result is 0 (R25, R81). -/
theorem State.reset_portsAgree : State.reset.portsAgree := by
  refine ⟨rfl, rfl, rfl, ?_⟩
  decide

/-- Settles O48: the build's bounds are the whole payload range, the ports agree, and there is no
result to compare with `y`. -/
theorem resetMeetsTheInvariant : Obligations.ResetMeetsTheInvariant := by
  unfold Obligations.ResetMeetsTheInvariant
  refine ⟨by decide, State.reset_portsAgree, fun _ hne => ?_⟩
  exact absurd rfl hne

end Sys2Proof.Machine
end
